-- ==== Sys2Proof/Word.lean ====
section
/-! DEFINITION. The word types of the payload core: bytes, the 9-bit LFSR state, the 16-bit request and response words. -/

namespace Sys2Proof

/-- One byte of the transmit buffer; also a pattern type `T` and a payload length `L` (R7: `TYPE_W`, `LEN_W` are 8). -/
abbrev Byte := BitVec 8

/-- A state of the PRBS9 shift register (R100: 9 bits, `LFSR_W` of R7). -/
abbrev LfsrWord := BitVec 9

/-- A request word, `T` in bits 7..0 and `L` in bits 15..8 (R70). -/
abbrev ReqWord := BitVec 16

/-- A response word, `STATUS` in bits 1..0 and `WRITTEN` in bits 15..7 (R72). -/
abbrev RespWord := BitVec 16

end Sys2Proof
end

