-- ==== Sys2Proof/Syntax.lean ====
section
/-! DEFINITION. The requests (one constructor for each row of spec/opcode_table.json) and the assembler's text form as syntax. -/

namespace Sys2Proof

/-- The requests of the payload core, one constructor for each row of the opcode table, in its order (R76, R80). Every
row has the operand `l`, the payload length; the five rows whose type code is not one number also carry the code `t`
(R166), whole as the table's field `T` gives it (log 16). -/
inductive Instr where
  /-- `BUILD_PRBS9`, T = 0x00 (R116). -/
  | buildPrbs9 (l : Byte)
  /-- `BUILD_FILL_0F`, T = 0x01 (R133). -/
  | buildFill0F (l : Byte)
  /-- `BUILD_FILL_55`, T = 0x02 (R134). -/
  | buildFill55 (l : Byte)
  /-- `BUILD_FILL_FF`, T = 0x04 (R135). -/
  | buildFillFF (l : Byte)
  /-- `BUILD_FILL_00`, T = 0x05 (R136). -/
  | buildFill00 (l : Byte)
  /-- `BUILD_FILL_F0`, T = 0x06 (R137). -/
  | buildFillF0 (l : Byte)
  /-- `BUILD_FILL_AA`, T = 0x07 (R138). -/
  | buildFillAA (l : Byte)
  /-- `BUILD_INVALID`, T = 0x03 (R166, R77). -/
  | buildInvalid03 (l : Byte)
  /-- `BUILD_INVALID`, T in 0x08..0x0F (R166). -/
  | buildInvalid08 (t l : Byte)
  /-- `BUILD_INVALID`, T in 0x10..0x1F (R166). -/
  | buildInvalid10 (t l : Byte)
  /-- `BUILD_INVALID`, T in 0x20..0x3F (R166). -/
  | buildInvalid20 (t l : Byte)
  /-- `BUILD_INVALID`, T in 0x40..0x7F (R166). -/
  | buildInvalid40 (t l : Byte)
  /-- `BUILD_INVALID`, T in 0x80..0xFF (R166). -/
  | buildInvalid80 (t l : Byte)
  deriving DecidableEq, Repr

/-- What a pattern type selects (R76): the PRBS9 generator, the fixed-pattern repeater with its constant, or no generator. -/
inductive PatternKind where
  | prbs9
  | fixed (c : Byte)
  | unsupported
  deriving DecidableEq, Repr

/-- A request in the assembler's form (R81): the general form and the seven pseudo-requests. Operands are naturals here;
the assembler rejects one outside 0 to 255. -/
inductive AsmRequest where
  | build (t l : Nat)
  | prbs9 (l : Nat)
  | fill0F (l : Nat)
  | fill55 (l : Nat)
  | fillFF (l : Nat)
  | fill00 (l : Nat)
  | fillF0 (l : Nat)
  | fillAA (l : Nat)
  deriving DecidableEq, Repr

end Sys2Proof
end

