-- ==== Sys2Proof/WellFormed.lean ====
section
/-! DEFINITION. Which terms of `Instr` stand for a request word: the type code an invalid row carries lies in that row's range. -/

namespace Sys2Proof

/-- A request is well formed when its type code has the fixed bits of its row in the opcode table (R80's mask and match,
on the type byte). A length is any byte (R70), so the rows with one type code have nothing to check. -/
def Instr.wellFormed : Instr → Bool
  | .buildPrbs9 _ => true
  | .buildFill0F _ => true
  | .buildFill55 _ => true
  | .buildFillFF _ => true
  | .buildFill00 _ => true
  | .buildFillF0 _ => true
  | .buildFillAA _ => true
  | .buildInvalid03 _ => true
  | .buildInvalid08 t _ => t &&& 0xF8#8 == 0x08#8
  | .buildInvalid10 t _ => t &&& 0xF0#8 == 0x10#8
  | .buildInvalid20 t _ => t &&& 0xE0#8 == 0x20#8
  | .buildInvalid40 t _ => t &&& 0xC0#8 == 0x40#8
  | .buildInvalid80 t _ => t &&& 0x80#8 == 0x80#8

end Sys2Proof
end

