-- ==== Sys2Proof/Decode.lean ====
section
/-! DEFINITION. Decoding a request word (total, R78 and R80), the opcode table as data, and the encoder. -/

namespace Sys2Proof

/-- The type code of a request word (R70, R71). -/
def wordType (w : ReqWord) : Byte := w.extractLsb' 0 8

/-- The payload length of a request word (R70, R71). -/
def wordLen (w : ReqWord) : Byte := w.extractLsb' 8 8

/-- A request word from its two fields (R70). -/
def mkWord (t l : Byte) : ReqWord := l ++ t

/-- Decode of a request word, total on every word (R80). The last six cases are the six `BUILD_INVALID` rows, told apart
by the fixed bits the opcode table gives each. -/
def decodeWord (w : ReqWord) : Instr :=
  let t := wordType w
  let l := wordLen w
  if t = 0x00#8 then .buildPrbs9 l
  else if t = 0x01#8 then .buildFill0F l
  else if t = 0x02#8 then .buildFill55 l
  else if t = 0x04#8 then .buildFillFF l
  else if t = 0x05#8 then .buildFill00 l
  else if t = 0x06#8 then .buildFillF0 l
  else if t = 0x07#8 then .buildFillAA l
  else if t = 0x03#8 then .buildInvalid03 l
  else if t &&& 0xF8#8 = 0x08#8 then .buildInvalid08 t l
  else if t &&& 0xF0#8 = 0x10#8 then .buildInvalid10 t l
  else if t &&& 0xE0#8 = 0x20#8 then .buildInvalid20 t l
  else if t &&& 0xC0#8 = 0x40#8 then .buildInvalid40 t l
  else .buildInvalid80 t l

/-- Why a byte string is no request. No word is refused (R78): only a string too short to hold one. -/
inductive DecodeError where
  /-- Fewer than the two bytes of a request word. -/
  | truncated
  deriving DecidableEq, Repr

/-- Decode from bytes, total on any byte string: the low byte (the type) first, then the length, and the bytes left over.
DESIGN CHOICE (log 17): the request has no place in memory; this is the byte order of the header, which D3 takes for the word. -/
def decode : List Byte → Except DecodeError (Instr × List Byte)
  | t :: l :: rest => .ok (decodeWord (mkWord t l), rest)
  | [_] => .error .truncated
  | [] => .error .truncated

/-- The type code of a request (R76; the `T` operand of R166). -/
def Instr.reqType : Instr → Byte
  | .buildPrbs9 _ => 0x00#8
  | .buildFill0F _ => 0x01#8
  | .buildFill55 _ => 0x02#8
  | .buildFillFF _ => 0x04#8
  | .buildFill00 _ => 0x05#8
  | .buildFillF0 _ => 0x06#8
  | .buildFillAA _ => 0x07#8
  | .buildInvalid03 _ => 0x03#8
  | .buildInvalid08 t _ => t
  | .buildInvalid10 t _ => t
  | .buildInvalid20 t _ => t
  | .buildInvalid40 t _ => t
  | .buildInvalid80 t _ => t

/-- The length operand of a request (R70). -/
def Instr.reqLen : Instr → Byte
  | .buildPrbs9 l => l
  | .buildFill0F l => l
  | .buildFill55 l => l
  | .buildFillFF l => l
  | .buildFill00 l => l
  | .buildFillF0 l => l
  | .buildFillAA l => l
  | .buildInvalid03 l => l
  | .buildInvalid08 _ l => l
  | .buildInvalid10 _ l => l
  | .buildInvalid20 _ l => l
  | .buildInvalid40 _ l => l
  | .buildInvalid80 _ l => l

/-- The word of a request (R70: `L` above `T`). -/
def encode (i : Instr) : ReqWord := mkWord i.reqType i.reqLen

/-- The bytes of a request, in the order `decode` reads them. -/
def encodeBytes (i : Instr) : List Byte := [i.reqType, i.reqLen]

/-- One row of spec/opcode_table.json: a word selects it when `w &&& mask = pattern` (R80). -/
structure OpcodeRow where
  mask : ReqWord
  pattern : ReqWord
  mnemonic : String
  deriving DecidableEq, Repr

/-- A word selects a row. -/
def OpcodeRow.selects (r : OpcodeRow) (w : ReqWord) : Bool := w &&& r.mask == r.pattern

/-- spec/opcode_table.json, its thirteen rows in order (R80). -/
def opcodeTable : List OpcodeRow :=
  [ ⟨0x00FF#16, 0x0000#16, "BUILD_PRBS9"⟩,
    ⟨0x00FF#16, 0x0001#16, "BUILD_FILL_0F"⟩,
    ⟨0x00FF#16, 0x0002#16, "BUILD_FILL_55"⟩,
    ⟨0x00FF#16, 0x0004#16, "BUILD_FILL_FF"⟩,
    ⟨0x00FF#16, 0x0005#16, "BUILD_FILL_00"⟩,
    ⟨0x00FF#16, 0x0006#16, "BUILD_FILL_F0"⟩,
    ⟨0x00FF#16, 0x0007#16, "BUILD_FILL_AA"⟩,
    ⟨0x00FF#16, 0x0003#16, "BUILD_INVALID"⟩,
    ⟨0x00F8#16, 0x0008#16, "BUILD_INVALID"⟩,
    ⟨0x00F0#16, 0x0010#16, "BUILD_INVALID"⟩,
    ⟨0x00E0#16, 0x0020#16, "BUILD_INVALID"⟩,
    ⟨0x00C0#16, 0x0040#16, "BUILD_INVALID"⟩,
    ⟨0x0080#16, 0x0080#16, "BUILD_INVALID"⟩ ]

/-- The table's row of a request. -/
def Instr.row : Instr → Nat
  | .buildPrbs9 _ => 0
  | .buildFill0F _ => 1
  | .buildFill55 _ => 2
  | .buildFillFF _ => 3
  | .buildFill00 _ => 4
  | .buildFillF0 _ => 5
  | .buildFillAA _ => 6
  | .buildInvalid03 _ => 7
  | .buildInvalid08 _ _ => 8
  | .buildInvalid10 _ _ => 9
  | .buildInvalid20 _ _ => 10
  | .buildInvalid40 _ _ => 11
  | .buildInvalid80 _ _ => 12

/-- The bytes of a table word, its low byte first. -/
def tableBytes (w : Nat) : List Byte := [BitVec.ofNat 8 w, BitVec.ofNat 8 (w / 256)]

/-- The request the decoder reads from an opcode-table word of `nbits` bits; a word longer than the one request length
(R79) is none. -/
def decodeTableWord (nbits w : Nat) : Option Instr :=
  if nbits ≤ 16 then
    match decode (tableBytes (w % 2 ^ nbits)) with
    | .ok (i, _) => some i
    | .error _ => none
  else none

end Sys2Proof
end

