-- ==== Sys2Proof/Config.lean ====
section
/-! DEFINITION. What is fixed when the block is built (the parameters of R8) and the free values the spec leaves open. -/

namespace Sys2Proof

/-- `PRBS_LEN0` of R8: the result of a PRBS9 request with length 0 (R114, D10). -/
inductive PrbsLen0 where
  | accept
  | reject
  deriving DecidableEq, Repr

/-- How an implementation advances the LFSR (R108, D25): one bit per step (`F1`) or eight bits per step (`F8`). -/
inductive Stepping where
  | bitSerial
  | byteGranular
  deriving DecidableEq, Repr

/-- The parameters of one built block (R8, R28, R203). They stand in the state so that every statement quantifies over
them; no step changes them. -/
structure Params where
  /-- `CAP`, the capacity of the transmit buffer in bytes, any natural number. -/
  cap : Nat
  /-- `PRBS_LEN0`. -/
  prbsLen0 : PrbsLen0
  /-- `PREZERO_ON_FAIL` (R110, D11). -/
  prezeroOnFail : Bool
  /-- The stepping of the LFSR, the implementation's choice (R108). -/
  stepping : Stepping
  deriving DecidableEq, Repr

/-- The defaults of R8: `CAP` 1024 (D7), `PRBS_LEN0` accept (D10), `PREZERO_ON_FAIL` false (D11). DESIGN CHOICE (log 9):
bit-serial stepping, the source's own loop; the spec gives no default for it. -/
def Params.default : Params :=
  { cap := 1024, prbsLen0 := .accept, prezeroOnFail := false, stepping := .bitSerial }

/-- A free value of any width, one for each value of the counter `State.draws` (log 8): the "any value" of R37, R58, R59,
R108 and R201. It has no body, so no proof can see what it is. -/
opaque Config.freeValue (w : Nat) (draw : Nat) : BitVec w

/-- What the host's memory holds at an offset that nothing in the model has written (R37: "whatever the host's memory
holds"); a free value for each offset (log 7). -/
opaque Config.unwrittenByte (offset : Nat) : Byte

end Sys2Proof
end

