-- ==== Sys2Proof/Machine/State.lean ====
section
/-! DEFINITION. The state of the payload core and its host side as plain data, the reasons a step can stop, and the state after reset. -/

namespace Sys2Proof.Machine

/-- `PHASE`, the sequencer's position (R24, R30). Its numeric codes are not given (log 21). -/
inductive Phase where
  | idle
  | busy
  deriving DecidableEq, Repr

/-- The four result codes of a request (R73); their numbers are `ResultCode.code` in Flags.lean. -/
inductive ResultCode where
  | ok
  | bufferOverflow
  | invalidPatternType
  | sequenceLengthExceeded
  deriving DecidableEq, Repr

/-- What the host can do between two moves of the block (R20, R22, R51, R207). -/
inductive HostAction where
  /-- Drive the request ports `req_valid`, `req_type`, `req_len`. -/
  | drive (valid : Bool) (t l : Byte)
  /-- Drive the port `rst`. -/
  | setRst (level : Bool)
  /-- Read one byte of the transmit buffer. -/
  | readBuf (offset : Nat)
  /-- Write one byte of the transmit buffer. -/
  | writeBuf (offset : Nat) (value : Byte)
  /-- Read the response ports. -/
  | readResp
  /-- Hand the finished frame to the transmit path (R207). -/
  | forward
  deriving DecidableEq, Repr

/-- Whose move is next: the block's, or one action of the host. -/
inductive Turn where
  | block
  | host (a : HostAction)
  deriving DecidableEq, Repr

/-- The bytes of the transmit buffer that something has written, by offset. Canonical form: offsets strictly rising
(`Memory.wf`). An unlisted offset has no value of the model's (log 7). -/
abbrev Memory := List Host.Cell

/-- The machine: the block's registers (R24), its input ports (R22), the host's buffer (R35), the parameters (R8), and
the host's side of the interface. -/
structure State where
  /-- `PHASE` (R30). -/
  phase : Phase
  /-- `REQ_T`, the type latched at acceptance (R31). -/
  reqT : Byte
  /-- `REQ_L`, the length latched at acceptance (R31). -/
  reqL : Byte
  /-- `LFSR`, the PRBS9 State (R25, R100). -/
  lfsr : LfsrWord
  /-- `BIT_IDX`, the generator's bit counter (R24, R26). -/
  bitIdx : BitVec 10
  /-- `BYTE_ACC`, the byte under assembly (R24, R26). -/
  byteAcc : Byte
  /-- `RESP_VALID` (R27, R29). -/
  respValid : Bool
  /-- `STATUS` (R29, R73). -/
  status : BitVec 2
  /-- `WRITTEN` (R29, R74). -/
  written : BitVec 9
  /-- `TXBUF`, the host's transmit buffer (R35). -/
  txbuf : Memory
  /-- Port `rst` (R22, R200). -/
  rst : Bool
  /-- Port `req_valid` (R22). -/
  reqValid : Bool
  /-- Port `req_type` (R22). -/
  reqType : Byte
  /-- Port `req_len` (R22). -/
  reqLen : Byte
  /-- The parameters the block was built with (R8). -/
  params : Params
  /-- The turns to come; when it is empty the block moves (log 3). The model's own field. -/
  schedule : List Turn
  /-- The window offsets the host has written during this BUSY phase (R59). The model's own field. -/
  contended : List Nat
  /-- What the host's last buffer read gave. The model's own field. -/
  hostByte : Option Byte
  /-- What the host's last response read gave. The model's own field. -/
  hostResp : Option RespWord
  /-- The frame the host last handed to the transmit path (R207). The model's own field. -/
  forwarded : List Byte
  /-- How many free values have been drawn (log 8). The model's own field. -/
  draws : Nat
  deriving DecidableEq, Repr

/-- Why a step stops. No request ever raises one: a request's errors are results (R180). -/
inductive Fault where
  /-- An access at an offset `≥ CAP`, which does not exist (R50). Raised by the host's buffer accesses and by `MemWrite`;
  the block never gets there (R66). Safe: the model stops. -/
  | outsideBuffer (offset : Nat)
  /-- The host reads the response while `RESP_VALID = 0`: it has no value (R29, U6). Raised by `readResp` and `forward`.
  Safe: the model stops. -/
  | responseNotValid
  deriving DecidableEq, Repr

/-- Why a step has no meaning. -/
inductive Refusal where
  /-- An instruction whose meaning is not written yet; raised by `exec`'s arms only. Safe: the model stops. -/
  | notModelled (mnemonic : String)
  deriving DecidableEq, Repr

/-- The outcome of a step of this machine. -/
abbrev Result := Host.Outcome State Fault Refusal

/-- Right after reset (R37, R200): IDLE, no response, `rst` released, no request presented. The spec leaves every other
register unspecified; their zeros are DESIGN CHOICE (log 4). The parameters are the defaults (log 6), nothing has been
written to the buffer (log 7), and the host's side is empty (log 3). -/
def State.reset : State :=
  { phase := .idle, reqT := 0, reqL := 0, lfsr := 0, bitIdx := 0, byteAcc := 0
    respValid := false, status := 0, written := 0, txbuf := []
    rst := false, reqValid := false, reqType := 0, reqLen := 0
    params := Params.default, schedule := [], contended := []
    hostByte := none, hostResp := none, forwarded := [], draws := 0 }

end Sys2Proof.Machine
end

