-- ==== Sys2Proof/Machine/Operands.lean ====
section
/-! DEFINITION. The operands of a request: its latched word, the pattern map and constants, the size and length checks, the write window. -/

namespace Sys2Proof.Machine

/-- `HDR_BYTES` of R7: the header is two bytes. -/
def hdrBytes : Nat := 2

/-- `PRBS_MAX_BITS` of R7. -/
def prbsMaxBits : Int := 511

/-- `PRBS_MAX_LEN` of R7: the longest PRBS9 payload in bytes. -/
def prbsMaxLen : Nat := 64

/-- The smallest `k` with `n ≤ 2 ^ k`, for `AW`. -/
def ceilLog2 (n : Nat) : Nat := if n ≤ 1 then 0 else Nat.log2 (n - 1) + 1

/-- `AW` of R8, the width of the buffer write address (D27). -/
def addrWidth (p : Params) : Nat := max 1 (ceilLog2 (max p.cap 1))

/-- The request being worked on, as a word: the latched type and length (R31, R70). -/
def requestWord (s : State) : ReqWord := mkWord s.reqT s.reqL

/-- `L + 2`, the bytes of header and payload, in exact arithmetic (R10, R151). -/
def totalBytes (l : Byte) : Nat := l.toNat + hdrBytes

/-- The offset of payload byte `k` (R157). -/
def payloadOffset (k : Nat) : Nat := hdrBytes + k

/-- The constant of a fixed-pattern code (R131); no other code has one. -/
def constOf (t : Byte) : Option Byte :=
  if t = 0x01#8 then some 0x0F#8
  else if t = 0x02#8 then some 0x55#8
  else if t = 0x04#8 then some 0xFF#8
  else if t = 0x05#8 then some 0x00#8
  else if t = 0x06#8 then some 0xF0#8
  else if t = 0x07#8 then some 0xAA#8
  else none

/-- `PATTERN_MAP` (R76, R153): what a type code selects. The codes but 0x04 are the spec's decision D5 (log 15); 0x03 has
no generator (R77). -/
def patternKind (t : Byte) : PatternKind :=
  if t = 0x00#8 then .prbs9
  else match constOf t with
    | some c => .fixed c
    | none => .unsupported

/-- The capacity check fails (R151): `L + 2 > CAP`. -/
def overflows (p : Params) (l : Byte) : Bool := decide (p.cap < totalBytes l)

/-- The PRBS9 length check fails (R109): `L*8 - 1 > 511` in exact integers, or `L = 0` where `PRBS_LEN0` rejects (R114). -/
def prbsRejects (p : Params) (l : Byte) : Bool :=
  decide ((l.toNat : Int) * 8 - 1 > prbsMaxBits) || (l == 0#8 && p.prbsLen0 == .reject)

/-- The number of offsets in a request's write window `W = {a | a < min (L + 2) CAP}` (R58). -/
def windowSize (p : Params) (l : Byte) : Nat := min (totalBytes l) p.cap

/-- An offset lies in the write window of a request of length `l` (R58). -/
def inWindow (p : Params) (l : Byte) (a : Nat) : Bool := decide (a < windowSize p l)

/-- An offset of the host lies in the window of the request in flight. -/
def State.guarded (s : State) (a : Nat) : Bool := s.phase == .busy && inWindow s.params s.reqL a

/-- Port `req_ready` (R22): `PHASE == IDLE`. -/
def State.reqReady (s : State) : Bool := s.phase == .idle

end Sys2Proof.Machine
end

