-- ==== Sys2Proof/Machine/Flags.lean ====
section
/-! DEFINITION. The response: the status codes, the reason texts, the `WRITTEN` count and the response word. -/

namespace Sys2Proof.Machine

/-- The number of a result code (R73, D4). -/
def ResultCode.code : ResultCode → BitVec 2
  | .ok => 0#2
  | .bufferOverflow => 1#2
  | .invalidPatternType => 2#2
  | .sequenceLengthExceeded => 3#2

/-- The reason text the collaborator shows for a code (R73, D23); the block outputs the code only. -/
def ResultCode.reason : ResultCode → Option String
  | .ok => none
  | .bufferOverflow => some "buffer overflow"
  | .invalidPatternType => some "invalid pattern type"
  | .sequenceLengthExceeded => some "PRBS9 generation failed"

/-- `WRITTEN` of a successful request of length `l` (R74): `L + 2`, which fits 9 bits. -/
def writtenOk (l : Byte) : BitVec 9 := BitVec.ofNat 9 (totalBytes l)

/-- `WRITTEN` of a failed request (R74, D4). -/
def writtenFailed : BitVec 9 := 0#9

/-- The response word of R72: `WRITTEN`, five zero bits, `STATUS`. -/
def respWordOf (written : BitVec 9) (status : BitVec 2) : RespWord := written ++ 0#5 ++ status

/-- The response word the ports present. It has a meaning only while `RESP_VALID = 1` (R72). -/
def State.respWord (s : State) : RespWord := respWordOf s.written s.status

/-- The result a request reports (R183): the first failing check in the order of R152. -/
def resultOf (p : Params) (t l : Byte) : ResultCode :=
  if overflows p l then .bufferOverflow
  else match patternKind t with
    | .prbs9 => if prbsRejects p l then .sequenceLengthExceeded else .ok
    | .fixed _ => .ok
    | .unsupported => .invalidPatternType

/-- `WRITTEN` for a result (R74, R160). -/
def writtenOf (r : ResultCode) (l : Byte) : BitVec 9 :=
  match r with
  | .ok => writtenOk l
  | .bufferOverflow => writtenFailed
  | .invalidPatternType => writtenFailed
  | .sequenceLengthExceeded => writtenFailed

end Sys2Proof.Machine
end

