-- ==== Sys2Proof/Machine/Ops.lean ====
section
/-! DEFINITION. The named operations: the buffer, free values, the write primitive, acceptance, completion, an error, reset. -/

namespace Sys2Proof.Machine

/-! ## Outcomes -/

/-- The next state of an outcome, where it has one. -/
def Result.next? : Result → Option State
  | .next s => some s
  | .fault _ => none
  | .refused _ => none

/-- Go on from an outcome: a fault or a refusal ends the work. -/
def andThen (r : Result) (f : State → Result) : Result :=
  match r with
  | .next s => f s
  | .fault e => .fault e
  | .refused e => .refused e

/-! ## The buffer (R50, R52) -/

/-- The canonical form of the buffer: offsets strictly rising. An unlisted offset has no value, so no entry can equal what
it reads as (log 7). -/
abbrev Memory.wf (m : Memory) : Prop := m.Pairwise (fun x y => x.1 < y.1)

/-- Read one byte; `none` where nothing has been written. -/
def Memory.read : Memory → Nat → Option Byte
  | [], _ => none
  | (k, v) :: rest, a => if k = a then some v else Memory.read rest a

/-- Write one byte, keeping the canonical form. -/
def Memory.write : Memory → Nat → Byte → Memory
  | [], a, v => [(a, v)]
  | (k, u) :: rest, a, v =>
    if a < k then (a, v) :: (k, u) :: rest
    else if a = k then (a, v) :: rest
    else (k, u) :: Memory.write rest a v

/-- Write bytes at `a`, `a + 1`, .... -/
def Memory.writeFrom : Memory → Nat → List Byte → Memory
  | m, _, [] => m
  | m, a, b :: bs => Memory.writeFrom (Memory.write m a b) (a + 1) bs

/-- Write a free value at each of the offsets, the draws counted from `k` (log 8). -/
def Memory.drawAt : Memory → Nat → List Nat → Memory
  | m, _, [] => m
  | m, k, a :: as => Memory.drawAt (Memory.write m a (Config.freeValue 8 k)) (k + 1) as

/-- The byte the host finds at an offset: what was written there, else whatever the host's memory holds (R37, log 7). -/
def State.byteAt (s : State) (a : Nat) : Byte := (s.txbuf.read a).getD (Config.unwrittenByte a)

/-! ## Updates of the state -/

/-- Replace the buffer's contents. -/
def State.setBuf (s : State) (m : Memory) : State := { s with txbuf := m }

/-- Set the generator's registers (R24: the PRBS9 generator writes them). -/
def State.setGen (s : State) (lfsr : LfsrWord) (bitIdx : BitVec 10) (byteAcc : Byte) : State :=
  { s with lfsr := lfsr, bitIdx := bitIdx, byteAcc := byteAcc }

/-- Count `n` draws of free values. -/
def State.countDraws (s : State) (n : Nat) : State := { s with draws := s.draws + n }

/-- Set the turns to come. -/
def State.setSchedule (s : State) (ts : List Turn) : State := { s with schedule := ts }

/-! ## The write primitive (R52) -/

/-- `MemWrite(a, 1, v)`: `TXBUF[a] <- v` and no other effect (R52). An offset `≥ CAP` does not exist (R50); the block never
drives one (R66). -/
def memWrite (a : Nat) (v : Byte) (s : State) : Result :=
  if a < s.params.cap then .next (s.setBuf (s.txbuf.write a v)) else .fault (.outsideBuffer a)

/-- `MemWrite` of each byte in turn at rising offsets from `a`. -/
def memWriteFrom (a : Nat) : List Byte → State → Result
  | [], s => .next s
  | b :: bs, s => andThen (memWrite a b s) (memWriteFrom (a + 1) bs)

/-- The header of a successful request (R158): byte 0 is the type, byte 1 the length. The order after the payload is the
source's (log 10). -/
def writeHeader (t l : Byte) (s : State) : Result := andThen (memWrite 0 t s) (memWrite 1 l)

/-! ## Acceptance and completion (R31, R32) -/

/-- Acceptance (R31): latch the request, clear the response, go BUSY. No window offset has been touched yet. -/
def acceptRequest (t l : Byte) (s : State) : State :=
  { s with reqT := t, reqL := l, respValid := false, phase := .busy, contended := [] }

/-- The window offsets whose byte is any value at completion, because the host wrote them while BUSY (R59). -/
def State.contendedIn (s : State) (l : Byte) : List Nat := s.contended.filter (inWindow s.params l)

/-- R59: at completion each window byte the host wrote during BUSY is any value. Nothing changes where the host kept its
duty (R205). -/
def settleWindow (l : Byte) (s : State) : State :=
  let hit := s.contendedIn l
  { s with txbuf := s.txbuf.drawAt s.draws hit, draws := s.draws + hit.length, contended := [] }

/-- Present a response and go IDLE (R32, R160). -/
def respond (code : ResultCode) (written : BitVec 9) (s : State) : State :=
  { s with status := code.code, written := written, respValid := true, phase := .idle }

/-- Completion of a request of length `l` (R32): the response is presented after every write has taken effect (R60). -/
def complete (code : ResultCode) (l : Byte) (s : State) : Result :=
  .next (respond code (writtenOf code l) (settleWindow l s))

/-- `raise E(none)` (R11, R184), the analogue of taking an exception: the code in `STATUS`, `WRITTEN` 0, `RESP_VALID` 1, IDLE;
nothing is saved, no handler runs and no address is vectored to (R180). There is no return from it (R185): the next
acceptance clears the response. -/
def raiseError (code : ResultCode) (l : Byte) (s : State) : Result := complete code l s

/-- A successful end (R158, R160): the header, then completion with `(OK, L + 2)`. -/
def succeed (t l : Byte) (s : State) : Result := andThen (writeHeader t l s) (complete .ok l)

/-- The sequencer in IDLE (R31): accept a presented request, else wait. -/
def idleMove (s : State) : State :=
  if s.reqValid then acceptRequest s.reqType s.reqLen s else s

/-! ## Reset (R200, R201) -/

/-- The offsets a reset turns into garbage: the window of the request in flight (R201), none in IDLE. -/
def resetWindow (s : State) : List Nat :=
  match s.phase with
  | .busy => List.range (windowSize s.params s.reqL)
  | .idle => []

/-- `rst` goes to 1 (R200, R201): IDLE, no response, every other register any value, a request in flight abandoned with its
window any value; bytes outside the window stay (log 12). -/
def enterReset (s : State) : State :=
  let n := s.draws
  let window := resetWindow s
  { s with
    phase := .idle
    respValid := false
    status := Config.freeValue 2 n
    written := Config.freeValue 9 (n + 1)
    reqT := Config.freeValue 8 (n + 2)
    reqL := Config.freeValue 8 (n + 3)
    lfsr := Config.freeValue 9 (n + 4)
    bitIdx := Config.freeValue 10 (n + 5)
    byteAcc := Config.freeValue 8 (n + 6)
    txbuf := s.txbuf.drawAt (n + 7) window
    draws := n + 7 + window.length
    contended := []
    rst := true }

/-- The block's move while `rst = 1` (R200): it holds the reset state, accepts nothing and writes nothing. (A state with
`rst = 1` that is not in it, which no run reaches, enters it: log 22.) -/
def holdReset (s : State) : State :=
  if s.phase = .idle ∧ s.respValid = false then s else enterReset s

end Sys2Proof.Machine
end

