-- ==== Sys2Proof/Machine/FixedPattern.lean ====
section
/-! DEFINITION. The fixed-pattern repeater (41_fixed_pattern.md) and the six BUILD_FILL operations. -/

namespace Sys2Proof.Machine

/-- `Fill(c, L)` (R130): the byte `c` at every payload offset; it reads nothing and keeps no state. -/
def fill (c l : Byte) (s : State) : Result := memWriteFrom (payloadOffset 0) (List.replicate l.toNat c) s

/-- The flow the six operations share (R133 to R138): capacity check, fill, header, response. -/
def buildFill (t c l : Byte) (s : State) : Result :=
  if overflows s.params l then raiseError .bufferOverflow l s
  else andThen (fill c l s) (succeed t l)

/-- `BUILD_FILL_0F` (R133). -/
def execBuildFill0F (l : Byte) (s : State) : Result := buildFill 0x01#8 0x0F#8 l s

/-- `BUILD_FILL_55` (R134). -/
def execBuildFill55 (l : Byte) (s : State) : Result := buildFill 0x02#8 0x55#8 l s

/-- `BUILD_FILL_FF` (R135). -/
def execBuildFillFF (l : Byte) (s : State) : Result := buildFill 0x04#8 0xFF#8 l s

/-- `BUILD_FILL_00` (R136). -/
def execBuildFill00 (l : Byte) (s : State) : Result := buildFill 0x05#8 0x00#8 l s

/-- `BUILD_FILL_F0` (R137). -/
def execBuildFillF0 (l : Byte) (s : State) : Result := buildFill 0x06#8 0xF0#8 l s

/-- `BUILD_FILL_AA` (R138). -/
def execBuildFillAA (l : Byte) (s : State) : Result := buildFill 0x07#8 0xAA#8 l s

end Sys2Proof.Machine
end

