-- ==== Sys2Proof/Machine/Prbs9.lean ====
section
/-! DEFINITION. The PRBS9 generator (40_prbs9.md): the LFSR, its two outputs, generation in both steppings, and BUILD_PRBS9. -/

namespace Sys2Proof.Machine

/-! ## The LFSR (R100 to R107) -/

/-- `SEED` (R7, R104). -/
def seed : LfsrWord := 0x1FF#9

/-- `fb(s) = s[0] ^ s[4]` (R101). -/
def feedback (s : LfsrWord) : BitVec 1 := s.extractLsb' 0 1 ^^^ s.extractLsb' 4 1

/-- `F1(s) = (s >> 1) | (fb(s) << 8)` (R102); the feedback is of the state before the shift. -/
def lfsrStep (s : LfsrWord) : LfsrWord := (s >>> 1) ||| ((feedback s).setWidth 9 <<< 8)

/-- `bit_out(s) = s[0]` (R103). -/
def bitOut (s : LfsrWord) : BitVec 1 := s.extractLsb' 0 1

/-- `bitrev8` (R10): bit `7 - j` of the result is bit `j` of `b`. -/
def bitrev8 (b : Byte) : Byte :=
  b.extractLsb' 0 1 ++ b.extractLsb' 1 1 ++ b.extractLsb' 2 1 ++ b.extractLsb' 3 1 ++
    b.extractLsb' 4 1 ++ b.extractLsb' 5 1 ++ b.extractLsb' 6 1 ++ b.extractLsb' 7 1

/-- `byte_out(s) = bitrev8(s[7:0])` (R106). -/
def byteOut (s : LfsrWord) : Byte := bitrev8 (s.extractLsb' 0 8)

/-- `F8(s)`, eight steps at once, in the closed form of R107 (bit 8 first). -/
def lfsrByteStep (s : LfsrWord) : LfsrWord :=
  let b := fun j => s.extractLsb' j 1
  (b 2 ^^^ b 6 ^^^ b 7) ++ (b 1 ^^^ b 5 ^^^ b 6) ++ (b 0 ^^^ b 4 ^^^ b 5) ++ (b 4 ^^^ b 8) ++ (b 3 ^^^ b 7) ++
    (b 2 ^^^ b 6) ++ (b 1 ^^^ b 5) ++ (b 0 ^^^ b 4) ++ b 8

/-- `x_n`, bit `n` of the PRBS9 sequence (R105): the output bit after `n` steps from the seed. -/
def prbsBit (n : Nat) : Bool := (lfsrStep^[n] seed).getLsbD 0

/-! ## Generation (R111, R112) -/

/-- A generation under way: the generator's registers and the bytes assembled so far. -/
structure GenRun where
  lfsr : LfsrWord
  bitIdx : BitVec 10
  byteAcc : Byte
  out : List Byte
  deriving DecidableEq, Repr

/-- One iteration of R111's loop: `out[i / 8] |= LFSR[0] << (7 - i mod 8)`, then the shift; `i` is `BIT_IDX`, and `BYTE_ACC` holds
the byte under assembly. -/
def serialStep (g : GenRun) : GenRun :=
  let i := g.bitIdx.toNat
  let acc := g.out.getD (i / 8) 0#8 ||| ((bitOut g.lfsr).setWidth 8 <<< (7 - i % 8))
  { lfsr := lfsrStep g.lfsr, bitIdx := g.bitIdx + 1#10, byteAcc := acc, out := g.out.set (i / 8) acc }

/-- `n` iterations of R111's loop. -/
def serialLoop : Nat → GenRun → GenRun
  | 0, g => g
  | n + 1, g => serialLoop n (serialStep g)

/-- `Prbs9Gen(L)` of R111, bit-serial: seed, zero the bytes, `L*8 - 1` iterations (none for `L = 0`, R114). The last bit position
is never written (R113). -/
def serialGen (l : Nat) : GenRun :=
  serialLoop (l * 8 - 1) { lfsr := seed, bitIdx := 0#10, byteAcc := 0#8, out := List.replicate l 0#8 }

/-- `n` byte steps to the end of a byte-granular generation (R106 to R108); the last byte's last bit is 0 (R112). -/
def byteLoop : Nat → GenRun → GenRun
  | 0, g => g
  | n + 1, g =>
    let b := if n = 0 then byteOut g.lfsr &&& 0xFE#8 else byteOut g.lfsr
    byteLoop n { lfsr := lfsrByteStep g.lfsr, bitIdx := g.bitIdx, byteAcc := b, out := g.out ++ [b] }

/-- Generation by byte steps (R108). `BIT_IDX` has no meaning in it. -/
def byteGen (l : Nat) : GenRun :=
  byteLoop l { lfsr := seed, bitIdx := 0#10, byteAcc := 0#8, out := [] }

/-- The closed form of payload byte `k` of a PRBS9 payload of `l` bytes (R112): `FULL[k]`, the last one with bit 0 cleared. The
machine does not use it; claims compare the machine with it. -/
def prbsByte (l k : Nat) : Byte :=
  let full := byteOut (lfsrByteStep^[k] seed)
  if k + 1 = l then full &&& 0xFE#8 else full

/-- Run the generator over the payload region (R111, R157). The stepping is the implementation's; in byte steps `BIT_IDX` ends at
any value (R108, log 9). -/
def prbs9Gen (l : Byte) (s : State) : Result :=
  match s.params.stepping with
  | .bitSerial =>
    let g := serialGen l.toNat
    memWriteFrom (payloadOffset 0) g.out (s.setGen g.lfsr g.bitIdx g.byteAcc)
  | .byteGranular =>
    let g := byteGen l.toNat
    memWriteFrom (payloadOffset 0) g.out
      ((s.setGen g.lfsr (Config.freeValue 10 s.draws) g.byteAcc).countDraws 1)

/-- A rejected generation (R110): it zeroes the payload region where `PREZERO_ON_FAIL` says so, and never reports success. -/
def prbs9Reject (l : Byte) (s : State) : Result :=
  if s.params.prezeroOnFail then memWriteFrom (payloadOffset 0) (List.replicate l.toNat 0x00#8) s else .next s

/-- `BUILD_PRBS9` (R116). -/
def execBuildPrbs9 (l : Byte) (s : State) : Result :=
  if overflows s.params l then raiseError .bufferOverflow l s
  else if prbsRejects s.params l then andThen (prbs9Reject l s) (raiseError .sequenceLengthExceeded l)
  else andThen (prbs9Gen l s) (succeed 0x00#8 l)

end Sys2Proof.Machine
end

