-- ==== Sys2Proof/Machine/Builder.lean ====
section
/-! DEFINITION. The payload builder (42_payload_builder.md): BUILD_INVALID, and `Build` of R163 as a function. -/

namespace Sys2Proof.Machine

/-- The flow of a request whose code selects no generator (R166): capacity check first, then the type error; no byte written. -/
def buildInvalid (l : Byte) (s : State) : Result :=
  if overflows s.params l then raiseError .bufferOverflow l s else raiseError .invalidPatternType l s

/-- `BUILD_INVALID`, T = 0x03 (R166, R77). -/
def execBuildInvalid03 (l : Byte) (s : State) : Result := buildInvalid l s

/-- `BUILD_INVALID`, T in 0x08..0x0F (R166). The code has no part in the effect. -/
def execBuildInvalid08 (_t l : Byte) (s : State) : Result := buildInvalid l s

/-- `BUILD_INVALID`, T in 0x10..0x1F (R166). -/
def execBuildInvalid10 (_t l : Byte) (s : State) : Result := buildInvalid l s

/-- `BUILD_INVALID`, T in 0x20..0x3F (R166). -/
def execBuildInvalid20 (_t l : Byte) (s : State) : Result := buildInvalid l s

/-- `BUILD_INVALID`, T in 0x40..0x7F (R166). -/
def execBuildInvalid40 (_t l : Byte) (s : State) : Result := buildInvalid l s

/-- `BUILD_INVALID`, T in 0x80..0xFF (R166). -/
def execBuildInvalid80 (_t l : Byte) (s : State) : Result := buildInvalid l s

/-- What `Build` gives (R163). -/
structure BuildResult where
  buf : Memory
  code : ResultCode
  written : BitVec 9
  deriving DecidableEq, Repr

/-- `Build(T, L, CAP, B)` of R163, word for word: the effect of a whole request as one function of the type, the length, the
parameters and the buffer. The machine does not call it; claims compare the meanings with it. -/
def build (t l : Byte) (p : Params) (b : Memory) : BuildResult :=
  if p.cap < l.toNat + 2 then ⟨b, .bufferOverflow, 0⟩
  else if t = 0x00#8 then
    if (l.toNat : Int) * 8 - 1 > 511 ∨ (l = 0#8 ∧ p.prbsLen0 = .reject) then
      ⟨if p.prezeroOnFail then b.writeFrom 2 (List.replicate l.toNat 0x00#8) else b, .sequenceLengthExceeded, 0⟩
    else
      ⟨(((b.writeFrom 2 ((List.range l.toNat).map (prbsByte l.toNat))).write 0 t).write 1 l), .ok, BitVec.ofNat 9 (l.toNat + 2)⟩
  else match constOf t with
    | some c => ⟨(((b.writeFrom 2 (List.replicate l.toNat c)).write 0 t).write 1 l), .ok, BitVec.ofNat 9 (l.toNat + 2)⟩
    | none => ⟨b, .invalidPatternType, 0⟩

end Sys2Proof.Machine
end

