-- ==== Sys2Proof/Machine/Dispatch.lean ====
section
/-! DEFINITION. `exec`: one arm for each constructor of `Instr`, each a direct call of its meaning. -/

namespace Sys2Proof.Machine

def exec (i : Instr) (s : State) : Host.Outcome State Fault Refusal :=
  match i with
  | .buildPrbs9 l => Sys2Proof.Machine.execBuildPrbs9 l s
  | .buildFill0F l => Sys2Proof.Machine.execBuildFill0F l s
  | .buildFill55 l => Sys2Proof.Machine.execBuildFill55 l s
  | .buildFillFF l => Sys2Proof.Machine.execBuildFillFF l s
  | .buildFill00 l => Sys2Proof.Machine.execBuildFill00 l s
  | .buildFillF0 l => Sys2Proof.Machine.execBuildFillF0 l s
  | .buildFillAA l => Sys2Proof.Machine.execBuildFillAA l s
  | .buildInvalid03 l => Sys2Proof.Machine.execBuildInvalid03 l s
  | .buildInvalid08 t l => Sys2Proof.Machine.execBuildInvalid08 t l s
  | .buildInvalid10 t l => Sys2Proof.Machine.execBuildInvalid10 t l s
  | .buildInvalid20 t l => Sys2Proof.Machine.execBuildInvalid20 t l s
  | .buildInvalid40 t l => Sys2Proof.Machine.execBuildInvalid40 t l s
  | .buildInvalid80 t l => Sys2Proof.Machine.execBuildInvalid80 t l s

end Sys2Proof.Machine
end

