-- ==== Sys2Proof/Machine/HostSide.lean ====
section
/-! DEFINITION. The host's actions (R20, R51, R58, R59, R187, R200 to R207): ports, buffer accesses, response, frame. -/

namespace Sys2Proof.Machine

/-- Drive the request ports (R22). Nothing happens in the block until its next move (R31). -/
def hostDrive (valid : Bool) (t l : Byte) (s : State) : Result :=
  .next { s with reqValid := valid, reqType := t, reqLen := l }

/-- Drive `rst` (R200, R201): a rising level resets the block at once; a falling one leaves it IDLE and ready. -/
def hostSetRst (level : Bool) (s : State) : Result :=
  if level then .next (if s.rst then s else enterReset s) else .next { s with rst := false }

/-- The host reads a buffer byte: any value in the window of a request in flight, a draw for each read (R58, U8), else the byte
there. -/
def hostReadBuf (a : Nat) (s : State) : Result :=
  if a < s.params.cap then
    if s.guarded a then .next ({ s with hostByte := some (Config.freeValue 8 s.draws) }.countDraws 1)
    else .next { s with hostByte := some (s.byteAt a) }
  else .fault (.outsideBuffer a)

/-- The host writes a buffer byte: outside the window its value stands; in the window of a request in flight the byte is any value
after completion (R59, U9), which completion draws, and until then every read of it is a draw anyway (log 11). -/
def hostWriteBuf (a : Nat) (v : Byte) (s : State) : Result :=
  if a < s.params.cap then
    if s.guarded a then .next { s with contended := if a ∈ s.contended then s.contended else s.contended ++ [a] }
    else .next (s.setBuf (s.txbuf.write a v))
  else .fault (.outsideBuffer a)

/-- The host reads the response: a value only while `RESP_VALID = 1` (R29, R206), with no side effect on it (R34). -/
def hostReadResp (s : State) : Result :=
  if s.respValid then .next { s with hostResp := some s.respWord } else .fault .responseNotValid

/-- The bytes a successful response stands for: offsets 0 to `WRITTEN - 1` (R207). -/
def State.frame (s : State) : List Byte := (List.range s.written.toNat).map s.byteAt

/-- The host hands the frame to the transmit path (R207): exactly `WRITTEN` bytes on `OK`, nothing on an error. -/
def hostForward (s : State) : Result :=
  if s.respValid then
    if s.status = ResultCode.ok.code then
      if s.written.toNat ≤ s.params.cap then .next { s with forwarded := s.frame }
      else .fault (.outsideBuffer s.params.cap)
    else .next { s with forwarded := [] }
  else .fault .responseNotValid

/-- One action of the host. -/
def hostMove (a : HostAction) (s : State) : Result :=
  match a with
  | .drive valid t l => hostDrive valid t l s
  | .setRst level => hostSetRst level s
  | .readBuf offset => hostReadBuf offset s
  | .writeBuf offset value => hostWriteBuf offset value s
  | .readResp => hostReadResp s
  | .forward => hostForward s

end Sys2Proof.Machine
end

