-- ==== Sys2Proof/Machine/Step.lean ====
section
/-! DEFINITION. One step: the block's move or one action of the host, as the schedule says. -/

namespace Sys2Proof.Machine

/-- The block's move (R30 to R32, R200): hold in reset; accept or wait in IDLE; in BUSY run the latched request to its
completion, which is always enabled there. -/
def blockMove (s : State) : Result :=
  if s.rst then .next (holdReset s)
  else match s.phase with
    | .idle => .next (idleMove s)
    | .busy => exec (decodeWord (requestWord s)) s

/-- One step: the next turn of the schedule; when it is empty, the block moves (log 3). -/
def step (s : State) : Host.Outcome State Fault Refusal :=
  match s.schedule with
  | [] => blockMove s
  | .block :: rest => blockMove (s.setSchedule rest)
  | .host a :: rest => hostMove a (s.setSchedule rest)

/-- `s` with the request of a table word presented and accepted (R31), `rst` released and the block's move next, so that the very
next step runs exactly that request. It stands for the host presenting a request, which is how every request arrives (log 2). -/
def State.withFetchWord (s : State) (nbits w : Nat) : State :=
  let word : ReqWord := BitVec.ofNat 16 (w % 2 ^ nbits)
  let accepted := acceptRequest (wordType word) (wordLen word) { s with rst := false }
  accepted.setSchedule (.block :: s.schedule)

end Sys2Proof.Machine
end

