-- ==== Sys2Proof/Machine/Assembler.lean ====
section
/-! DEFINITION. The assembler's text form of a request (R81): parsing a line, expanding a pseudo-request, the word. -/

namespace Sys2Proof.Machine

/-- Why a line assembles to nothing. -/
inductive AsmError where
  /-- The line is not of R81's form. -/
  | badLine
  /-- A type or length outside 0 to 255 (R81). -/
  | outOfRange
  deriving DecidableEq, Repr

/-- The `BUILD T, L` a pseudo-request is an alias of (R81). -/
def AsmRequest.expand : AsmRequest → Nat × Nat
  | .build t l => (t, l)
  | .prbs9 l => (0x00, l)
  | .fill0F l => (0x01, l)
  | .fill55 l => (0x02, l)
  | .fillFF l => (0x04, l)
  | .fill00 l => (0x05, l)
  | .fillF0 l => (0x06, l)
  | .fillAA l => (0x07, l)

/-- The word of a request in assembler form, `L * 256 + T`; an operand outside 0 to 255 is rejected (R81). -/
def assemble (r : AsmRequest) : Except AsmError ReqWord :=
  let (t, l) := AsmRequest.expand r
  if t ≤ 255 ∧ l ≤ 255 then .ok (mkWord (BitVec.ofNat 8 t) (BitVec.ofNat 8 l)) else .error .outOfRange

/-- A blank of the text. DESIGN CHOICE (log 20): space or tab. -/
def isBlank (c : Char) : Bool := c == ' ' || c == '\t'

/-- Drop the blanks at both ends. -/
def trimBlanks (cs : List Char) : List Char := ((cs.dropWhile isBlank).reverse.dropWhile isBlank).reverse

/-- The value of a digit in a base. -/
def digitValue (base : Nat) (c : Char) : Option Nat :=
  let n := c.toNat
  let v := if 48 ≤ n ∧ n ≤ 57 then n - 48 else if 65 ≤ n ∧ n ≤ 70 then n - 55 else if 97 ≤ n ∧ n ≤ 102 then n - 87 else base
  if v < base then some v else none

/-- Digits to a number, from an accumulator. -/
def parseDigits (base : Nat) : Nat → List Char → Option Nat
  | acc, [] => some acc
  | acc, c :: cs => (digitValue base c).bind (fun d => parseDigits base (acc * base + d) cs)

/-- A number, decimal or `0x` hexadecimal (R81). -/
def parseNumber : List Char → Option Nat
  | [] => none
  | '0' :: 'x' :: c :: cs => parseDigits 16 0 (c :: cs)
  | c :: cs => parseDigits 10 0 (c :: cs)

/-- The operands of `BUILD`: two numbers with a comma between them (R81). -/
def parsePair (cs : List Char) : Option (Nat × Nat) :=
  match parseNumber (trimBlanks (cs.takeWhile (· != ','))), cs.dropWhile (· != ',') with
  | some t, _ :: rest => (parseNumber (trimBlanks rest)).map (fun l => (t, l))
  | _, _ => none

/-- The request of a line's name and operand text (R81). -/
def parseRequest (name operands : List Char) : Option AsmRequest :=
  if name = ['B', 'U', 'I', 'L', 'D'] then (parsePair operands).map (fun p => .build p.1 p.2)
  else if name = ['P', 'R', 'B', 'S', '9'] then (parseNumber operands).map .prbs9
  else if name = ['F', 'I', 'L', 'L', '0', 'F'] then (parseNumber operands).map .fill0F
  else if name = ['F', 'I', 'L', 'L', '5', '5'] then (parseNumber operands).map .fill55
  else if name = ['F', 'I', 'L', 'L', 'F', 'F'] then (parseNumber operands).map .fillFF
  else if name = ['F', 'I', 'L', 'L', '0', '0'] then (parseNumber operands).map .fill00
  else if name = ['F', 'I', 'L', 'L', 'F', '0'] then (parseNumber operands).map .fillF0
  else if name = ['F', 'I', 'L', 'L', 'A', 'A'] then (parseNumber operands).map .fillAA
  else none

/-- One line of a program: nothing on a blank or comment line (`;` starts a comment), else the word of its request (R81). -/
def assembleLine (line : List Char) : Except AsmError (Option ReqWord) :=
  let text := trimBlanks (line.takeWhile (· != ';'))
  if text.isEmpty then .ok none
  else
    match parseRequest (text.takeWhile (! isBlank ·)) (trimBlanks (text.dropWhile (! isBlank ·))) with
    | none => .error .badLine
    | some r => (assemble r).map some

/-- A program is a sequence of requests (R81): the words of its lines in order, or the first error. -/
def assembleProgram : List (List Char) → Except AsmError (List ReqWord)
  | [] => .ok []
  | line :: rest =>
    match assembleLine line, assembleProgram rest with
    | .ok (some w), .ok ws => .ok (w :: ws)
    | .ok none, .ok ws => .ok ws
    | .error e, _ => .error e
    | .ok _, .error e => .error e

end Sys2Proof.Machine
end

