-- ==== Sys2Proof/Safety.lean ====
section
/-! DEFINITION. The terms the claims use: the invariant of the machine, the host's duties, what a request leaves alone. -/

namespace Sys2Proof.Machine

/-- What holds of every state a run reaches: the buffer is in canonical form and inside `CAP` (R50, R66); a block at work or in reset
shows no response (R31, R200); only window offsets of a request in flight are contended (R59); a response is the one `REQ_T` and
`REQ_L` call for (R160, R183). -/
structure Inv (s : State) : Prop where
  bufCanonical : Memory.wf s.txbuf
  bufInside : ∀ c ∈ s.txbuf, c.1 < s.params.cap
  busyQuiet : s.phase = .busy → s.respValid = false
  rstQuiet : s.rst = true → s.phase = .idle ∧ s.respValid = false
  contendedInside : ∀ a ∈ s.contended, s.phase = .busy ∧ inWindow s.params s.reqL a = true
  responseRight : s.respValid = true →
    s.status = (resultOf s.params s.reqT s.reqL).code ∧
    s.written = writtenOf (resultOf s.params s.reqT s.reqL) s.reqL

/-- The host's duties for one action (R204 to R206): a request only when ready, no buffer access in the window of a request in
flight or outside the buffer, the response only while valid. -/
def actionKept (s : State) : HostAction → Bool
  | .drive valid _ _ => !valid || s.reqReady
  | .setRst _ => true
  | .readBuf a => decide (a < s.params.cap) && !s.guarded a
  | .writeBuf a _ => decide (a < s.params.cap) && !s.guarded a
  | .readResp => s.respValid
  | .forward => s.respValid

/-- The next turn, if it is the host's, keeps the host's duties. -/
def dutyKept (s : State) : Bool :=
  match s.schedule with
  | [] => true
  | .block :: _ => true
  | .host a :: _ => actionKept s a

/-- The block moves next and leaves the turns `rest`: the schedule is empty, or gives the block the turn (log 3). -/
def BlockNext (s : State) (rest : List Turn) : Prop :=
  (s.schedule = [] ∧ rest = []) ∨ s.schedule = .block :: rest

/-- The state presents a result: `STATUS`, `WRITTEN`, `RESP_VALID` and IDLE (R32, R160). -/
structure Presents (t : State) (code : ResultCode) (written : BitVec 9) : Prop where
  status : t.status = code.code
  written : t.written = written
  respValid : t.respValid = true
  phase : t.phase = .idle

/-- What no request changes: the latched request, the ports, the parameters, the turns to come and what the host has observed. -/
structure KeepsRest (s t : State) : Prop where
  reqT : t.reqT = s.reqT
  reqL : t.reqL = s.reqL
  rst : t.rst = s.rst
  reqValid : t.reqValid = s.reqValid
  reqType : t.reqType = s.reqType
  reqLen : t.reqLen = s.reqLen
  params : t.params = s.params
  schedule : t.schedule = s.schedule
  hostByte : t.hostByte = s.hostByte
  hostResp : t.hostResp = s.hostResp
  forwarded : t.forwarded = s.forwarded

/-- The generator's registers are unchanged. -/
structure KeepsGen (s t : State) : Prop where
  lfsr : t.lfsr = s.lfsr
  bitIdx : t.bitIdx = s.bitIdx
  byteAcc : t.byteAcc = s.byteAcc

/-- The response registers are unchanged. -/
structure KeepsResponse (s t : State) : Prop where
  respValid : t.respValid = s.respValid
  status : t.status = s.status
  written : t.written = s.written

/-- The six fixed-pattern requests of length `l`, each with its type code and its constant (R76, R131). -/
def fillRows (l : Byte) : List (Instr × Byte × Byte) :=
  [ (.buildFill0F l, 0x01#8, 0x0F#8), (.buildFill55 l, 0x02#8, 0x55#8), (.buildFillFF l, 0x04#8, 0xFF#8),
    (.buildFill00 l, 0x05#8, 0x00#8), (.buildFillF0 l, 0x06#8, 0xF0#8), (.buildFillAA l, 0x07#8, 0xAA#8) ]

/-- The six rows of `BUILD_INVALID` at a type code and a length (R166). -/
def invalidRows (t l : Byte) : List Instr :=
  [ .buildInvalid03 l, .buildInvalid08 t l, .buildInvalid10 t l, .buildInvalid20 t l, .buildInvalid40 t l, .buildInvalid80 t l ]

end Sys2Proof.Machine
end

