-- ==== Sys2Proof/Certificates/Slice0/Obligations.lean ====
section
/-! DEFINITION. The statements for the provers, one `def Obligations.<Name> : Prop` each; OBLIGATIONS.json gives their rules. -/

set_option autoImplicit false

open Sys2Proof Sys2Proof.Machine

/-! ## Encoding -/

/-- R80: no bit of a request is lost; decoding the word of a well-formed request gives it back, every operand at every value. -/
def Obligations.DecodeAfterEncode : Prop :=
  ∀ i : Instr, i.wellFormed = true → decodeWord (encode i) = i

/-- R78, R70: every word is a request, a well-formed one, and its word is the word that was decoded. -/
def Obligations.EncodeAfterDecode : Prop :=
  ∀ w : ReqWord, (decodeWord w).wellFormed = true ∧ encode (decodeWord w) = w ∧
    (decodeWord w).reqType = w.extractLsb' 0 8 ∧ (decodeWord w).reqLen = w.extractLsb' 8 8

/-- R80: the thirteen rows are disjoint and cover every word, and the row that selects a word is the row of the request it decodes to. -/
def Obligations.OneOpcodeRowSelectsEachWord : Prop :=
  ∀ (w : ReqWord) (n : Nat) (r : OpcodeRow), opcodeTable[n]? = some r →
    (r.selects w = true ↔ n = (decodeWord w).row)

/-- R80, 95_test_vectors.md section 2.5: words written out from the encoding decode to the requests they stand for. -/
def Obligations.SampleWordsDecode : Prop :=
  decodeWord 0b0100000000000000#16 = .buildPrbs9 64#8 ∧
  decodeWord 0b0000001100000010#16 = .buildFill55 3#8 ∧
  decodeWord 0b0000010100000100#16 = .buildFillFF 5#8 ∧
  decodeWord 0b0000000000000011#16 = .buildInvalid03 0#8 ∧
  decodeWord 0b0001111100011111#16 = .buildInvalid10 0x1F#8 31#8 ∧
  decodeWord 0b0000000001111111#16 = .buildInvalid40 0x7F#8 0#8 ∧
  decodeWord 0b1111111111111111#16 = .buildInvalid80 0xFF#8 255#8

/-- R81: the general form and each pseudo-request assemble to the word `L * 256 + T`, and an operand outside 0 to 255 is rejected. -/
def Obligations.PseudoRequestsAssemble : Prop :=
  ∀ (t l : Nat) (r : AsmRequest),
    (r, t) ∈ [(AsmRequest.build t l, t), (.prbs9 l, 0x00), (.fill0F l, 0x01), (.fill55 l, 0x02), (.fillFF l, 0x04),
      (.fill00 l, 0x05), (.fillF0 l, 0x06), (.fillAA l, 0x07)] →
    (t ≤ 255 ∧ l ≤ 255 → ∃ w, assemble r = .ok w ∧ w.toNat = l * 256 + t) ∧
    (¬ (t ≤ 255 ∧ l ≤ 255) → assemble r = .error .outOfRange)

/-! ## The LFSR -/

/-- R101, R102, R103: the feedback, the step bit by bit, and the serial output, in every state. -/
def Obligations.LfsrStepBits : Prop :=
  ∀ s : LfsrWord,
    (feedback s).getLsbD 0 = (s.getLsbD 0 ^^ s.getLsbD 4) ∧
    (∀ j < 8, (lfsrStep s).getLsbD j = s.getLsbD (j + 1)) ∧
    (lfsrStep s).getLsbD 8 = (s.getLsbD 0 ^^ s.getLsbD 4) ∧
    (bitOut s).getLsbD 0 = s.getLsbD 0

/-- R106, R107: the byte output is the low byte reversed, and the byte step is eight bit steps with the closed form of R107. -/
def Obligations.ByteStepIsEightBitSteps : Prop :=
  ∀ s : LfsrWord,
    (∀ j < 8, (byteOut s).getLsbD (7 - j) = s.getLsbD j) ∧
    lfsrByteStep s = lfsrStep^[8] s ∧
    (lfsrByteStep s).getLsbD 0 = s.getLsbD 8 ∧
    (lfsrByteStep s).getLsbD 1 = (s.getLsbD 0 ^^ s.getLsbD 4) ∧
    (lfsrByteStep s).getLsbD 2 = (s.getLsbD 1 ^^ s.getLsbD 5) ∧
    (lfsrByteStep s).getLsbD 3 = (s.getLsbD 2 ^^ s.getLsbD 6) ∧
    (lfsrByteStep s).getLsbD 4 = (s.getLsbD 3 ^^ s.getLsbD 7) ∧
    (lfsrByteStep s).getLsbD 5 = (s.getLsbD 4 ^^ s.getLsbD 8) ∧
    (lfsrByteStep s).getLsbD 6 = ((s.getLsbD 0 ^^ s.getLsbD 4) ^^ s.getLsbD 5) ∧
    (lfsrByteStep s).getLsbD 7 = ((s.getLsbD 1 ^^ s.getLsbD 5) ^^ s.getLsbD 6) ∧
    (lfsrByteStep s).getLsbD 8 = ((s.getLsbD 2 ^^ s.getLsbD 6) ^^ s.getLsbD 7)

/-- R105: nine ones, then the recurrence; the state after `n` steps shows nine bits of the sequence; the byte output after `n`
steps is eight sequence bits, the first in bit 7 (R106). -/
def Obligations.PrbsSequenceRecurrence : Prop :=
  (∀ n < 9, prbsBit n = true) ∧
  (∀ n, prbsBit (n + 9) = (prbsBit n ^^ prbsBit (n + 4))) ∧
  (∀ n, ∀ j ≤ 8, (lfsrStep^[n] seed).getLsbD j = prbsBit (n + j)) ∧
  (∀ n, ∀ j ≤ 7, (byteOut (lfsrStep^[n] seed)).getLsbD (7 - j) = prbsBit (n + j))

/-- R105: from the seed the states have period 511, visit every non-zero state once in a period, and never reach 0, which is a
fixed point. -/
def Obligations.LfsrPeriodIs511 : Prop :=
  (∀ n, lfsrStep^[n + 511] seed = lfsrStep^[n] seed) ∧
  (∀ s : LfsrWord, s ≠ 0#9 → ∃! n, n < 511 ∧ lfsrStep^[n] seed = s) ∧
  (∀ n, lfsrStep^[n] seed ≠ 0#9) ∧ lfsrStep 0#9 = 0#9

/-! ## BUILD_PRBS9 -/

/-- R112: a PRBS9 request of 1 to 64 bytes that fits succeeds; payload byte `k` is `FULL[k]`, the last one with bit 0 cleared, and bit
`7 - j` of byte `k` is `x_(8k+j)` but for the last position. (A byte the host wrote during BUSY is any value, R59.) -/
def Obligations.Prbs9RequestWritesSequence : Prop :=
  ∀ (l : Byte) (s : State), 1 ≤ l.toNat → l.toNat ≤ 64 → l.toNat + 2 ≤ s.params.cap →
    ∃ t, exec (.buildPrbs9 l) s = .next t ∧ Presents t .ok (writtenOk l) ∧
      (0 ∉ s.contended → t.txbuf.read 0 = some 0x00#8) ∧
      (1 ∉ s.contended → t.txbuf.read 1 = some l) ∧
      ∀ k < l.toNat,
        ∃ b : Byte, (payloadOffset k ∉ s.contended → t.txbuf.read (payloadOffset k) = some b) ∧
          b = (if k + 1 = l.toNat then byteOut (lfsrByteStep^[k] seed) &&& 0xFE#8 else byteOut (lfsrByteStep^[k] seed)) ∧
          ∀ j < 8, b.getLsbD (7 - j) = (if k + 1 = l.toNat ∧ j = 7 then false else prbsBit (8 * k + j))

/-- R113: the last bit of the last byte is 0, and it differs from the sequence bit for exactly the listed lengths. -/
def Obligations.Prbs9LastBitStaysZero : Prop :=
  ∀ (l : Byte) (s : State), 1 ≤ l.toNat → l.toNat ≤ 64 → l.toNat + 2 ≤ s.params.cap → l.toNat + 1 ∉ s.contended →
    ∃ t b, exec (.buildPrbs9 l) s = .next t ∧ t.txbuf.read (l.toNat + 1) = some b ∧ b.getLsbD 0 = false ∧
      (b.getLsbD 0 ≠ prbsBit (8 * l.toNat - 1) ↔
        l.toNat ∈ [1, 2, 3, 4, 6, 8, 9, 10, 12, 14, 18, 21, 26, 27, 30, 31, 32, 37, 39, 40, 41, 42, 44, 45, 47, 48, 51, 52,
          54, 59, 60, 61, 63, 64])

/-- R109: after the capacity check a PRBS9 request reports the length violation exactly when `L*8 - 1 > 511` in exact integers (or, with
`PRBS_LEN0 = reject`, when `L = 0`); for `L ≥ 1` that is `L ≥ 65`. -/
def Obligations.Prbs9RejectedExactlyBeyond511Bits : Prop :=
  ∀ (l : Byte) (s : State), l.toNat + 2 ≤ s.params.cap →
    ∃ t, exec (.buildPrbs9 l) s = .next t ∧
      (t.status = ResultCode.sequenceLengthExceeded.code ↔
        ((l.toNat : Int) * 8 - 1 > 511 ∨ (l.toNat = 0 ∧ s.params.prbsLen0 = .reject))) ∧
      (1 ≤ l.toNat → (t.status = ResultCode.sequenceLengthExceeded.code ↔ 65 ≤ l.toNat))

/-- R110, R154: a PRBS9 request over the length limit fails with `SEQUENCE_LENGTH_EXCEEDED` and `WRITTEN` 0; it writes nothing, or with
`PREZERO_ON_FAIL` zeroes exactly the payload region. That the generator's registers stay is the model's reading (log 18): neither rule
says it. -/
def Obligations.Prbs9LengthViolation : Prop :=
  ∀ (l : Byte) (s : State), l.toNat + 2 ≤ s.params.cap →
    (65 ≤ l.toNat ∨ (l.toNat = 0 ∧ s.params.prbsLen0 = .reject)) →
    ∃ t, exec (.buildPrbs9 l) s = .next t ∧ Presents t .sequenceLengthExceeded 0#9 ∧ KeepsGen s t ∧
      (s.params.prezeroOnFail = false → ∀ a, a ∉ s.contended → t.txbuf.read a = s.txbuf.read a) ∧
      (s.params.prezeroOnFail = true →
        (∀ k < l.toNat, payloadOffset k ∉ s.contended → t.txbuf.read (payloadOffset k) = some 0x00#8) ∧
        ∀ a, (∀ k < l.toNat, a ≠ payloadOffset k) → a ∉ s.contended → t.txbuf.read a = s.txbuf.read a)

/-- R114: length 0 succeeds with only the header written, or fails where `PRBS_LEN0` rejects. -/
def Obligations.Prbs9LengthZero : Prop :=
  ∀ s : State, 2 ≤ s.params.cap →
    ∃ t, exec (.buildPrbs9 0#8) s = .next t ∧
      (s.params.prbsLen0 = .accept →
        Presents t .ok 2#9 ∧ (0 ∉ s.contended → t.txbuf.read 0 = some 0#8) ∧ (1 ∉ s.contended → t.txbuf.read 1 = some 0#8) ∧
        ∀ a, 2 ≤ a → t.txbuf.read a = s.txbuf.read a) ∧
      (s.params.prbsLen0 = .reject →
        Presents t .sequenceLengthExceeded 0#9 ∧ ∀ a, a ∉ s.contended → t.txbuf.read a = s.txbuf.read a)

/-- R111 in bit-serial stepping: a generation leaves `LFSR` stepped `L*8 - 1` times from the seed whatever it held, `BIT_IDX` at the number of
iterations and `BYTE_ACC` at the last byte. The final values of the last two are the model's reading (log 9): R26 and R108 leave
them unobservable. -/
def Obligations.BitSerialGenerationRegisters : Prop :=
  ∀ (l : Byte) (s : State), s.params.stepping = .bitSerial → l.toNat + 2 ≤ s.params.cap → l.toNat ≤ 64 →
    (l.toNat = 0 → s.params.prbsLen0 = .accept) →
    ∃ t, exec (.buildPrbs9 l) s = .next t ∧ t.lfsr = lfsrStep^[l.toNat * 8 - 1] seed ∧
      t.bitIdx.toNat = l.toNat * 8 - 1 ∧ t.byteAcc = (if l.toNat = 0 then 0#8 else prbsByte l.toNat (l.toNat - 1))

/-- R108: the two steppings of the LFSR write the same bytes and answer the same response. -/
def Obligations.SteppingsAreIndistinguishable : Prop :=
  ∀ (i : Instr) (s : State) (x : Stepping),
    ∃ t u, exec i s = .next t ∧ exec i { s with params := { s.params with stepping := x } } = .next u ∧
      u.respValid = t.respValid ∧ u.respWord = t.respWord ∧ u.phase = t.phase ∧
      ∀ a, a ∉ s.contended → u.txbuf.read a = t.txbuf.read a

/-- R159 for `BUILD_PRBS9`, with its frame: of the registers it changes only the generator's, and those only on success; of the buffer only the
header and the payload bytes it stores (the zeroed ones where `PREZERO_ON_FAIL` says so) and contended window bytes (R59). The model's
choices, not R159's words: that the generator's registers stay on a failure (log 18) and that no contended offset is left (log 11). -/
def Obligations.Prbs9Frame : Prop :=
  ∀ (l : Byte) (s t : State), exec (.buildPrbs9 l) s = .next t →
    KeepsRest s t ∧ t.contended = [] ∧ (t.status ≠ ResultCode.ok.code → KeepsGen s t) ∧
    (t.status = ResultCode.ok.code → ∀ a, a ≠ 0 → a ≠ 1 → (∀ k < l.toNat, a ≠ payloadOffset k) → a ∉ s.contendedIn l →
      t.txbuf.read a = s.txbuf.read a) ∧
    (t.status = ResultCode.sequenceLengthExceeded.code → s.params.prezeroOnFail = true →
      ∀ a, (∀ k < l.toNat, a ≠ payloadOffset k) → a ∉ s.contendedIn l → t.txbuf.read a = s.txbuf.read a) ∧
    (t.status ≠ ResultCode.ok.code →
      ¬ (t.status = ResultCode.sequenceLengthExceeded.code ∧ s.params.prezeroOnFail = true) →
      ∀ a, a ∉ s.contendedIn l → t.txbuf.read a = s.txbuf.read a)

/-! ## BUILD_FILL_* -/

/-- R132, R155: a fixed-pattern request that fits always succeeds, and every payload byte is the constant of its code. (A byte the host wrote
during BUSY is any value, R59.) -/
def Obligations.FillRequestsWriteConstant : Prop :=
  ∀ (l : Byte) (i : Instr) (code c : Byte) (s : State), (i, code, c) ∈ fillRows l → l.toNat + 2 ≤ s.params.cap →
    ∃ t, exec i s = .next t ∧ encode i = mkWord code l ∧ constOf code = some c ∧
      Presents t .ok (writtenOk l) ∧ t.written.toNat = l.toNat + 2 ∧
      (0 ∉ s.contended → t.txbuf.read 0 = some code) ∧
      (1 ∉ s.contended → t.txbuf.read 1 = some l) ∧
      ∀ k < l.toNat, payloadOffset k ∉ s.contended → t.txbuf.read (payloadOffset k) = some c

/-- R159 for the six fixed-pattern requests, their frame: no register but the response changes, and of the buffer only the header and
payload bytes of a success and contended window bytes (R59). The model's choices, not R159's words: that the generator's registers stay
(log 18), that no contended offset is left (log 11), and how many free values are drawn (log 8). -/
def Obligations.FillFrame : Prop :=
  ∀ (l : Byte) (i : Instr) (code c : Byte) (s t : State), (i, code, c) ∈ fillRows l → exec i s = .next t →
    KeepsRest s t ∧ KeepsGen s t ∧ t.contended = [] ∧ t.draws = s.draws + (s.contendedIn l).length ∧
    ∀ a, a ∉ s.contendedIn l →
      (t.status = ResultCode.ok.code → a ≠ 0 ∧ a ≠ 1 ∧ ∀ k < l.toNat, a ≠ payloadOffset k) →
      t.txbuf.read a = s.txbuf.read a

/-! ## BUILD_INVALID -/

/-- R156: a code without a generator fails with `INVALID_PATTERN_TYPE`, or with `BUFFER_OVERFLOW` where the capacity check fails; no byte is
written, never `OK`. -/
def Obligations.InvalidRequestsReportInvalidType : Prop :=
  ∀ (code l : Byte) (i : Instr) (s : State), i ∈ invalidRows code l →
    ∃ t, exec i s = .next t ∧
      Presents t (if s.params.cap < l.toNat + 2 then .bufferOverflow else .invalidPatternType) 0#9 ∧
      ∀ a, a ∉ s.contended → t.txbuf.read a = s.txbuf.read a

/-- R159 for `BUILD_INVALID`, its frame: no register but the response changes, and no byte but contended window bytes (R59). The model's
choices, not R159's words: that the generator's registers stay (log 18), that no contended offset is left (log 11), and how many free
values are drawn (log 8). -/
def Obligations.InvalidFrame : Prop :=
  ∀ (code l : Byte) (i : Instr) (s t : State), i ∈ invalidRows code l → exec i s = .next t →
    KeepsRest s t ∧ KeepsGen s t ∧ t.contended = [] ∧ t.draws = s.draws + (s.contendedIn l).length ∧
    ∀ a, a ∉ s.contendedIn l → t.txbuf.read a = s.txbuf.read a

/-! ## Every request -/

/-- R151: where `L + 2 > CAP` every request fails with `BUFFER_OVERFLOW`, whatever else is wrong with it, and writes no byte. That the
generator's registers stay is the model's reading (log 18): R151 does not say it. -/
def Obligations.OverflowReportedFirst : Prop :=
  ∀ (i : Instr) (s : State), s.params.cap < i.reqLen.toNat + 2 →
    ∃ t, exec i s = .next t ∧ Presents t .bufferOverflow 0#9 ∧ KeepsGen s t ∧
      ∀ a, a ∉ s.contended → t.txbuf.read a = s.txbuf.read a

/-- R183: the result a request reports, in the table's order of checks. -/
def Obligations.ReportedResultFollowsCheckOrder : Prop :=
  ∀ (i : Instr) (s : State), i.wellFormed = true →
    ∃ t, exec i s = .next t ∧
      t.status =
        (if s.params.cap < i.reqLen.toNat + 2 then 1#2
        else if i.reqType = 0x00#8 then
          if 65 ≤ i.reqLen.toNat ∨ (i.reqLen = 0#8 ∧ s.params.prbsLen0 = .reject) then 3#2 else 0#2
        else if i.reqType ∈ [0x01#8, 0x02#8, 0x04#8, 0x05#8, 0x06#8, 0x07#8] then 0#2
        else 2#2)

/-- R163: the meaning of every request is `Build`: its buffer, its code and its count, where the host kept out of the window. -/
def Obligations.EveryRequestIsBuild : Prop :=
  ∀ (i : Instr) (s : State), i.wellFormed = true → s.contended = [] →
    ∃ t, exec i s = .next t ∧
      t.txbuf = (build i.reqType i.reqLen s.params s.txbuf).buf ∧
      Presents t (build i.reqType i.reqLen s.params s.txbuf).code (build i.reqType i.reqLen s.params s.txbuf).written

/-- R168: whenever a request answers `OK`, byte 0 is its type and byte 1 its length. -/
def Obligations.HeaderOfEverySuccess : Prop :=
  ∀ (i : Instr) (s t : State), exec i s = .next t → t.status = ResultCode.ok.code →
    (0 ∉ s.contended → t.txbuf.read 0 = some i.reqType) ∧ (1 ∉ s.contended → t.txbuf.read 1 = some i.reqLen)

/-- R74: `WRITTEN` is `L + 2` when `STATUS` is `OK` and 0 on every error. -/
def Obligations.WrittenFollowsStatus : Prop :=
  ∀ (i : Instr) (s : State), ∃ t, exec i s = .next t ∧
    t.written.toNat = if t.status = ResultCode.ok.code then i.reqLen.toNat + 2 else 0

/-- R66: no request ever drives an offset at or above `CAP` (the write primitive would fault there, and no request faults), and none leaves a
byte listed there. -/
def Obligations.RequestsStayInsideBuffer : Prop :=
  ∀ (i : Instr) (s : State), ∃ t, exec i s = .next t ∧
    (∀ a, min (i.reqLen.toNat + 2) s.params.cap ≤ a → t.txbuf.read a = s.txbuf.read a) ∧
    ((∀ c ∈ s.txbuf, c.1 < s.params.cap) → ∀ c ∈ t.txbuf, c.1 < s.params.cap)

/-- R169, R36, R202: the outcome of a request depends on its word and the parameters only, not on registers, buffer contents or the
implementation's stepping; a byte it does not write keeps what was there. -/
def Obligations.OutcomeIndependentOfHistory : Prop :=
  ∀ (i : Instr) (s s' : State),
    s'.params.cap = s.params.cap → s'.params.prbsLen0 = s.params.prbsLen0 →
    s'.params.prezeroOnFail = s.params.prezeroOnFail → s.contended = [] → s'.contended = [] →
    ∃ t t', exec i s = .next t ∧ exec i s' = .next t' ∧ t'.status = t.status ∧ t'.written = t.written ∧
      ∀ a, t'.txbuf.read a = t.txbuf.read a ∨
        (t.txbuf.read a = s.txbuf.read a ∧ t'.txbuf.read a = s'.txbuf.read a)

/-- R57: repeating a request leaves the same buffer and the same response. -/
def Obligations.RepeatedRequestIsIdempotent : Prop :=
  ∀ (i : Instr) (s : State), s.contended = [] →
    ∃ t u, exec i s = .next t ∧ exec i t = .next u ∧ (∀ a, u.txbuf.read a = t.txbuf.read a) ∧
      u.status = t.status ∧ u.written = t.written

/-- R162, with `PRBS_LEN0 = accept`: overflow is reported by some request exactly for `CAP ≤ 256`, and the length violation exactly for
`CAP ≥ 67`. -/
def Obligations.ErrorsReachableByCapacity : Prop :=
  ∀ p : Params,
    ((∃ i s t, s.params = p ∧ exec i s = .next t ∧ t.status = ResultCode.bufferOverflow.code) ↔ p.cap ≤ 256) ∧
    (p.prbsLen0 = .accept →
      ((∃ i s t, i.wellFormed = true ∧ s.params = p ∧ exec i s = .next t ∧
        t.status = ResultCode.sequenceLengthExceeded.code) ↔ 67 ≤ p.cap))

/-! ## The sequencer and the step -/

/-- R30 to R32: the block's move in BUSY runs exactly the request its latched word decodes to, whether the schedule is empty or gives the block
the turn; and a well-formed request latched by acceptance is the one that runs. -/
def Obligations.StepRunsDecodedRequest : Prop :=
  (∀ s : State, s.rst = false → s.phase = .busy → s.schedule = [] →
    step s = exec (decodeWord (mkWord s.reqT s.reqL)) s) ∧
  (∀ (s : State) (rest : List Turn), s.rst = false → s.phase = .busy → s.schedule = .block :: rest →
    step s = exec (decodeWord (mkWord s.reqT s.reqL)) (s.setSchedule rest)) ∧
  (∀ (i : Instr) (s : State), i.wellFormed = true → s.rst = false → s.phase = .busy → s.schedule = [] →
    s.reqT = i.reqType → s.reqL = i.reqLen → step s = exec i s)

/-- R20, R51: where the host's turn is next, the step is exactly the host's action, on the state without that turn. (That turns stand in a
schedule is the model's choice, log 3.) -/
def Obligations.StepRunsHostTurn : Prop :=
  ∀ (s : State) (a : HostAction) (rest : List Turn), s.schedule = .host a :: rest →
    step s = hostMove a (s.setSchedule rest)

/-- A word placed by `withFetchWord` is the request the very next step runs, in the state acceptance leaves. -/
def Obligations.FetchedWordRunsNext : Prop :=
  ∀ (i : Instr) (s : State), i.wellFormed = true →
    step (s.withFetchWord 16 (encode i).toNat) =
      exec i (acceptRequest i.reqType i.reqLen { s with rst := false })

/-- R31: in IDLE a presented request is accepted: type and length latched from the ports, the response cleared, BUSY; without one the block
waits. It holds whether the schedule is empty or gives the block the turn (log 3). The model's choices, not R31's words: that the
contended offsets are cleared (log 11) and that `req_valid` stays as the host drives it (log 19). -/
def Obligations.AcceptanceLatchesRequest : Prop :=
  ∀ (s : State) (rest : List Turn), BlockNext s rest → s.rst = false → s.phase = .idle →
    (s.reqValid = true → step s = .next
      { s with
        reqT := s.reqType, reqL := s.reqLen, respValid := false, phase := .busy, contended := [], schedule := rest }) ∧
    (s.reqValid = false → step s = .next { s with schedule := rest })

/-- R31: a request presented, changed or withdrawn while BUSY is not accepted and does not affect the request in flight: the completed state
differs only in the ports. -/
def Obligations.BusyIgnoresRequestPorts : Prop :=
  ∀ (s t : State) (v : Bool) (x y : Byte), s.phase = .busy → s.rst = false → s.schedule = [] → step s = .next t →
    step { s with reqValid := v, reqType := x, reqLen := y } =
      .next { t with reqValid := v, reqType := x, reqLen := y } ∧ t.reqT = s.reqT ∧ t.reqL = s.reqL

/-- R32, R186: in BUSY the block's move always completes: buffer, `STATUS` and `WRITTEN` as `Build` of the latched request gives them, `RESP_VALID`
1, IDLE. -/
def Obligations.BusyMoveCompletesWithBuild : Prop :=
  ∀ s : State, s.schedule = [] → s.rst = false → s.phase = .busy →
    ∃ t, step s = .next t ∧
      Presents t (build s.reqT s.reqL s.params s.txbuf).code (build s.reqT s.reqL s.params s.txbuf).written ∧
      (s.contended = [] → t.txbuf = (build s.reqT s.reqL s.params s.txbuf).buf)

/-- R34: a response stays until the next acceptance or reset. (Premise: an idle block, as every reached state with a response is.) -/
def Obligations.ResponsePersists : Prop :=
  ∀ s t : State, s.respValid = true → s.phase = .idle → s.rst = false → step s = .next t →
    KeepsResponse s t ∨ (t.phase = .busy ∧ t.respValid = false ∧ s.reqValid = true) ∨
    (t.rst = true ∧ t.respValid = false)

/-- R27: `STATUS` changes only where a request completes, or where reset makes it any value. -/
def Obligations.StatusWrittenOnlyAtCompletion : Prop :=
  ∀ s t : State, Inv s → step s = .next t → t.status ≠ s.status →
    (s.phase = .busy ∧ t.phase = .idle ∧ t.respValid = true) ∨ (s.rst = false ∧ t.rst = true)

/-- R28: nothing configures the block at run time. -/
def Obligations.ParametersNeverChange : Prop :=
  ∀ s t : State, step s = .next t → t.params = s.params

/-- No step is refused: every word is a request with a defined outcome (R78). -/
def Obligations.NoStepIsRefused : Prop :=
  ∀ (s : State) (r : Refusal), step s ≠ .refused r

/-- Every step keeps the invariant of the machine, from every state that meets it. -/
def Obligations.EveryStepKeepsInvariant : Prop :=
  ∀ s t : State, Inv s → step s = .next t → Inv t

/-- The reset state meets the invariant, with the values R37 and R200 give: IDLE, no response, nothing of the buffer touched. -/
def Obligations.ResetStateMeetsInvariant : Prop :=
  Inv State.reset ∧ State.reset.phase = .idle ∧ State.reset.respValid = false ∧ State.reset.reqReady = true ∧
    State.reset.txbuf = []

/-! ## Reset -/

/-- R201: asserting `rst` abandons a request in flight: IDLE, no response, every byte outside the request's window unchanged (all of them
where none was in flight). -/
def Obligations.ResetAbandonsRequest : Prop :=
  ∀ s : State, s.rst = false →
    ∃ t, hostMove (.setRst true) s = .next t ∧ t.rst = true ∧ t.phase = .idle ∧ t.respValid = false ∧
      (∀ a, (s.phase = .busy → min (s.reqL.toNat + 2) s.params.cap ≤ a) → t.txbuf.read a = s.txbuf.read a)

/-- R200: while `rst = 1` the block is held IDLE with no response, accepts nothing and writes nothing, whether the schedule is empty or gives it
the turn (log 3); released, it is IDLE and ready with no response. That the unspecified registers also stay where they are while `rst = 1`
is the model's reading (log 12): R200 does not say it. -/
def Obligations.HeldInReset : Prop :=
  ∀ s : State, Inv s → s.rst = true →
    s.phase = .idle ∧ s.respValid = false ∧
    (∀ rest : List Turn, BlockNext s rest → step s = .next { s with schedule := rest }) ∧
    ∃ t, hostMove (.setRst false) s = .next t ∧ t.rst = false ∧ t.phase = .idle ∧ t.reqReady = true ∧
      t.respValid = false ∧ t.txbuf = s.txbuf

/-! ## The host -/

/-- R22, R31: driving the request ports sets the three of them and nothing else: no request is accepted before the block's own move. -/
def Obligations.DriveSetsRequestPorts : Prop :=
  ∀ (s : State) (v : Bool) (x y : Byte),
    hostMove (.drive v x y) s = .next { s with reqValid := v, reqType := x, reqLen := y }

/-- R51, R59: a host write inside the buffer and outside the window of a request in flight (anywhere while the block is IDLE) stores the byte;
no other byte and nothing else of the state changes, and the buffer stays in canonical form. -/
def Obligations.HostWriteStoresByte : Prop :=
  ∀ (s : State) (a : Nat) (v : Byte), a < s.params.cap → ¬ (s.phase = .busy ∧ a < s.reqL.toNat + 2) →
    ∃ m : Memory, hostMove (.writeBuf a v) s = .next { s with txbuf := m } ∧ m.read a = some v ∧
      (∀ b, b ≠ a → m.read b = s.txbuf.read b) ∧ (Memory.wf s.txbuf → Memory.wf m)

/-- R58: a host read inside the buffer completes; outside the window of a request in flight it gives the byte there and changes nothing else;
inside it, it gives some byte and changes no register and no byte. -/
def Obligations.HostReadFollowsWindow : Prop :=
  ∀ (s : State) (a : Nat), a < s.params.cap →
    (¬ (s.phase = .busy ∧ a < s.reqL.toNat + 2) →
      hostMove (.readBuf a) s = .next { s with hostByte := some (s.byteAt a) }) ∧
    (s.phase = .busy ∧ a < s.reqL.toNat + 2 →
      ∃ v : Byte, hostMove (.readBuf a) s = .next { s with hostByte := some v, draws := s.draws + 1 })

/-- R59: a host write into the window during BUSY changes neither the response of the request nor any other byte; outside the window the host's
value stands after completion. -/
def Obligations.HostWriteDuringBusy : Prop :=
  ∀ (i : Instr) (s : State) (a : Nat) (v : Byte), s.phase = .busy → i.reqLen = s.reqL → a < s.params.cap →
    ∃ u t t', hostMove (.writeBuf a v) s = .next u ∧ exec i s = .next t ∧ exec i u = .next t' ∧
      t'.status = t.status ∧ t'.written = t.written ∧ t'.respValid = t.respValid ∧
      (∀ b, b ≠ a → b ∉ s.contended → t'.txbuf.read b = t.txbuf.read b) ∧
      (s.reqL.toNat + 2 ≤ a → t'.txbuf.read a = some v)

/-- R60: once the response is there, a host read gives the byte `Build` gave. -/
def Obligations.ReadAfterCompletionGivesBuiltByte : Prop :=
  ∀ (i : Instr) (s : State) (a : Nat), i.wellFormed = true → s.contended = [] → a < s.params.cap →
    ∃ t u, exec i s = .next t ∧ t.respValid = true ∧ hostMove (.readBuf a) t = .next u ∧
      u.hostByte = some (((build i.reqType i.reqLen s.params s.txbuf).buf.read a).getD (Config.unwrittenByte a))

/-- R29, R34, R206: reading the response gives the response word and has no side effect while `RESP_VALID = 1`; while it is 0 there is no
value to read. -/
def Obligations.ResponseReadOnlyWhileValid : Prop :=
  ∀ s : State,
    (s.respValid = true → hostMove .readResp s = .next { s with hostResp := some s.respWord }) ∧
    (s.respValid = false → hostMove .readResp s = .fault .responseNotValid)

/-- R72, R73: the fields of the response word and the numbers of the codes. -/
def Obligations.ResponseWordFields : Prop :=
  ∀ s : State,
    s.respWord.extractLsb' 0 2 = s.status ∧ s.respWord.extractLsb' 2 5 = 0#5 ∧ s.respWord.extractLsb' 7 9 = s.written ∧
    ResultCode.ok.code = 0#2 ∧ ResultCode.bufferOverflow.code = 1#2 ∧ ResultCode.invalidPatternType.code = 2#2 ∧
    ResultCode.sequenceLengthExceeded.code = 3#2

/-- R207: after a request, forwarding hands over exactly `WRITTEN` bytes, the type, the length and the payload, on `OK`, and nothing on
an error. -/
def Obligations.ForwardHandsOverWrittenBytes : Prop :=
  ∀ (i : Instr) (s : State), i.wellFormed = true → s.contended = [] →
    ∃ t u, exec i s = .next t ∧ hostMove .forward t = .next u ∧
      (t.status = ResultCode.ok.code →
        u.forwarded.length = t.written.toNat ∧ u.forwarded.length = i.reqLen.toNat + 2 ∧
        u.forwarded[0]? = some i.reqType ∧ u.forwarded[1]? = some i.reqLen ∧
        ∀ k < i.reqLen.toNat, u.forwarded[2 + k]? =
          some (match constOf i.reqType with
            | some c => c
            | none => prbsByte i.reqLen.toNat k)) ∧
      (t.status ≠ ResultCode.ok.code → u.forwarded = [])

/-- R204 to R206: from a state of the invariant, a step whose host turn keeps the host's duties never stops. -/
def Obligations.DutifulHostNeverStops : Prop :=
  ∀ s : State, Inv s → dutyKept s = true → ∃ t, step s = .next t

/-- Where the host keeps its duties (`dutyKept`, log 24) and no reset arrives, a step in bit-serial stepping (log 9) advances the counter of free
values not at all (log 8) and leaves no contended offset (log 11). The counter and the list are the model's own fields; what the host
sees of the buffer is `DutifulHostSeesBuiltBuffer`. -/
def Obligations.DutifulRunsDrawNoFreeValue : Prop :=
  ∀ s t : State, Inv s → s.contended = [] → s.params.stepping = .bitSerial → s.rst = false → dutyKept s = true →
    step s = .next t → t.rst = false → t.draws = s.draws ∧ t.contended = []

/-- R61, one step of it: where the host keeps its duties (`dutyKept`, log 24) and no reset arrives, the step that completes a request presents
the response with exactly `Build`'s buffer; any other step changes no byte but the one the host itself writes, outside the window of a
request in flight; a host read gives the byte the buffer holds; and no contended offset is left (log 11), so that the same holds of the
next step. -/
def Obligations.DutifulHostSeesBuiltBuffer : Prop :=
  ∀ s t : State, Inv s → s.contended = [] → s.rst = false → dutyKept s = true → step s = .next t → t.rst = false →
    (s.phase = .busy → t.phase = .idle →
      t.respValid = true ∧ t.txbuf = (build s.reqT s.reqL s.params s.txbuf).buf) ∧
    (¬ (s.phase = .busy ∧ t.phase = .idle) → ∀ a, t.txbuf.read a = s.txbuf.read a ∨
      ((∃ v rest, s.schedule = .host (.writeBuf a v) :: rest ∧ t.txbuf.read a = some v) ∧
        ¬ (s.phase = .busy ∧ a < s.reqL.toNat + 2))) ∧
    (∀ a rest, s.schedule = .host (.readBuf a) :: rest → t.hostByte = some (s.byteAt a)) ∧
    t.contended = []

/-- R8: `AW` is `max(1, ceil(log2(max(CAP, 1))))`, and it can carry every offset of the buffer. -/
def Obligations.AddressWidthCarriesEveryOffset : Prop :=
  ∀ p : Params, addrWidth p = max 1 (Nat.clog 2 (max p.cap 1)) ∧ ∀ a < p.cap, a < 2 ^ addrWidth p
end

