-- ==== Sys2Proof/Laws/Decode.lean ====
section
/-! SUPPORT. The fields of a request word, and what the decoder and the tables do with them. -/

namespace Sys2Proof

theorem getLsbD_mkWord (t l : Byte) (i : Nat) :
    (mkWord t l).getLsbD i = if i < 8 then t.getLsbD i else l.getLsbD (i - 8) :=
  BitVec.getLsbD_append

@[simp] theorem wordType_mkWord (t l : Byte) : wordType (mkWord t l) = t := by
  refine BitVec.eq_of_getLsbD_eq fun i hi => ?_
  rw [wordType, BitVec.getLsbD_extractLsb', getLsbD_mkWord]
  simp [hi]

@[simp] theorem wordLen_mkWord (t l : Byte) : wordLen (mkWord t l) = l := by
  refine BitVec.eq_of_getLsbD_eq fun i hi => ?_
  rw [wordLen, BitVec.getLsbD_extractLsb', getLsbD_mkWord]
  simp [hi]

@[simp] theorem mkWord_fields (w : ReqWord) : mkWord (wordType w) (wordLen w) = w := by
  refine BitVec.eq_of_getLsbD_eq fun i hi => ?_
  rw [getLsbD_mkWord, wordType, wordLen, BitVec.getLsbD_extractLsb', BitVec.getLsbD_extractLsb']
  split
  · simp [*]
  · have e : 8 + (i - 8) = i := by omega
    rw [e]
    simp; omega

end Sys2Proof
end

