-- ==== Sys2Proof/Laws/Memory.lean ====
section
/-! SUPPORT. The laws of the buffer: read after write, the canonical form kept, and which offsets an operation lists. -/

namespace Sys2Proof.Machine

@[simp] theorem Memory.read_nil (a : Nat) : Memory.read [] a = none := rfl

theorem Memory.read_cons (k : Nat) (v : Byte) (m : Memory) (a : Nat) :
    Memory.read ((k, v) :: m) a = if k = a then some v else Memory.read m a := rfl

@[simp] theorem Memory.read_write_same (m : Memory) (a : Nat) (v : Byte) : (m.write a v).read a = some v := by
  induction m with
  | nil => simp [Memory.write, Memory.read]
  | cons c m ih =>
    obtain ⟨k, u⟩ := c
    unfold Memory.write
    split
    · simp [Memory.read]
    · split
      · simp [Memory.read]
      · rw [Memory.read_cons, if_neg (by omega)]
        exact ih

theorem Memory.read_write_other (m : Memory) {a x : Nat} (v : Byte) (h : x ≠ a) :
    (m.write a v).read x = m.read x := by
  induction m with
  | nil => simp [Memory.write, Memory.read, Ne.symm h]
  | cons c m ih =>
    obtain ⟨k, u⟩ := c
    unfold Memory.write
    split
    · rw [Memory.read_cons, if_neg (Ne.symm h)]
    · split
      next h1 h2 =>
        subst h2
        simp only [Memory.read_cons, if_neg (Ne.symm h)]
      · simp only [Memory.read_cons, ih]

theorem Memory.read_write (m : Memory) (a x : Nat) (v : Byte) :
    (m.write a v).read x = if x = a then some v else m.read x := by
  split
  next h => rw [h, Memory.read_write_same]
  next h => exact Memory.read_write_other m v h

/-- Which cells a write leaves: the written one and older ones. -/
theorem Memory.mem_write {m : Memory} {a : Nat} {v : Byte} {c : Host.Cell} (h : c ∈ m.write a v) :
    c = (a, v) ∨ c ∈ m := by
  induction m with
  | nil => simpa [Memory.write] using h
  | cons d m ih =>
    obtain ⟨k, u⟩ := d
    unfold Memory.write at h
    split at h
    · simpa using h
    · split at h
      · rcases List.mem_cons.1 h with h | h
        · exact .inl h
        · exact .inr (List.mem_cons_of_mem _ h)
      · rcases List.mem_cons.1 h with h | h
        · exact .inr (by simp [h])
        · exact (ih h).imp id (List.mem_cons_of_mem _)

theorem Memory.wf_write {m : Memory} (h : m.wf) (a : Nat) (v : Byte) : (m.write a v).wf := by
  induction m with
  | nil => simp [Memory.write, Memory.wf]
  | cons d m ih =>
    obtain ⟨k, u⟩ := d
    obtain ⟨hk, hm⟩ := List.pairwise_cons.1 h
    unfold Memory.write
    split
    next h1 =>
      refine List.pairwise_cons.2 ⟨fun c hc => ?_, h⟩
      rcases List.mem_cons.1 hc with rfl | hc
      · exact h1
      · exact Nat.lt_trans h1 (hk c hc)
    next h1 =>
      split
      next h2 => subst h2; exact List.pairwise_cons.2 ⟨hk, hm⟩
      next h2 =>
        refine List.pairwise_cons.2 ⟨fun c hc => ?_, ih hm⟩
        rcases Memory.mem_write hc with rfl | hc
        · simp only; omega
        · exact hk c hc

theorem Memory.wf_writeFrom {m : Memory} (h : m.wf) (a : Nat) (bs : List Byte) : (m.writeFrom a bs).wf := by
  induction bs generalizing m a with
  | nil => exact h
  | cons b bs ih => exact ih (Memory.wf_write h a b) (a + 1)

theorem Memory.wf_drawAt {m : Memory} (h : m.wf) (k : Nat) (as : List Nat) : (m.drawAt k as).wf := by
  induction as generalizing m k with
  | nil => exact h
  | cons a as ih => exact ih (Memory.wf_write h a _) (k + 1)

/-- What a read finds after bytes were written from `a` on: the byte written there, else what was there. -/
theorem Memory.read_writeFrom (m : Memory) (a : Nat) (bs : List Byte) (x : Nat) :
    (m.writeFrom a bs).read x = if a ≤ x ∧ x < a + bs.length then bs[x - a]? else m.read x := by
  induction bs generalizing m a with
  | nil =>
    simp only [Memory.writeFrom, List.length_nil]
    rw [if_neg (by omega)]
  | cons b bs ih =>
    simp only [Memory.writeFrom, ih, Memory.read_write, List.length_cons]
    by_cases h1 : x = a
    · subst h1
      rw [if_neg (by omega), if_pos rfl, if_pos (by omega)]
      simp
    · by_cases h2 : a + 1 ≤ x ∧ x < a + 1 + bs.length
      · rw [if_pos h2, if_pos (by omega)]
        obtain ⟨d, rfl⟩ : ∃ d, x = a + 1 + d := ⟨x - (a + 1), by omega⟩
        have e1 : a + 1 + d - (a + 1) = d := by omega
        have e2 : a + 1 + d - a = d + 1 := by omega
        rw [e1, e2, List.getElem?_cons_succ]
      · rw [if_neg h2, if_neg h1, if_neg (by omega)]

theorem Memory.read_drawAt_other (m : Memory) (k : Nat) {as : List Nat} {x : Nat} (h : x ∉ as) :
    (m.drawAt k as).read x = m.read x := by
  induction as generalizing m k with
  | nil => rfl
  | cons a as ih =>
    obtain ⟨h1, h2⟩ : x ≠ a ∧ x ∉ as := by simpa using h
    rw [Memory.drawAt, ih _ _ h2, Memory.read_write_other _ _ h1]

theorem Memory.mem_writeFrom {m : Memory} {a : Nat} {bs : List Byte} {c : Host.Cell} (h : c ∈ m.writeFrom a bs) :
    (a ≤ c.1 ∧ c.1 < a + bs.length) ∨ c ∈ m := by
  induction bs generalizing m a with
  | nil => exact .inr h
  | cons b bs ih =>
    rcases ih h with ⟨h1, h2⟩ | h
    · simp only [List.length_cons]; exact .inl ⟨by omega, by omega⟩
    · rcases Memory.mem_write h with rfl | h
      · simp
      · exact .inr h

theorem Memory.mem_drawAt {m : Memory} {k : Nat} {as : List Nat} {c : Host.Cell} (h : c ∈ m.drawAt k as) :
    c.1 ∈ as ∨ c ∈ m := by
  induction as generalizing m k with
  | nil => exact .inr h
  | cons a as ih =>
    rcases ih h with h | h
    · exact .inl (List.mem_cons_of_mem _ h)
    · rcases Memory.mem_write h with rfl | h
      · simp
      · exact .inr h

/-- Nothing is read below the first cell of a canonical buffer. -/
theorem Memory.read_of_lt {m : Memory} {a : Nat} (h : ∀ c ∈ m, a < c.1) : m.read a = none := by
  induction m with
  | nil => rfl
  | cons c m ih =>
    rw [Memory.read_cons, if_neg (by have := h c (by simp); omega)]
    exact ih fun d hd => h d (List.mem_cons_of_mem _ hd)

/-- Canonical buffers that read the same are the same data. -/
theorem Memory.eq_of_read {m m' : Memory} (h : m.wf) (h' : m'.wf) (e : ∀ a, m.read a = m'.read a) : m = m' := by
  induction m generalizing m' with
  | nil =>
    cases m' with
    | nil => rfl
    | cons d m' =>
      obtain ⟨k, u⟩ := d
      have := e k
      simp [Memory.read_cons] at this
  | cons c m ih =>
    obtain ⟨k, u⟩ := c
    obtain ⟨hk, hm⟩ := List.pairwise_cons.1 h
    cases m' with
    | nil =>
      have := e k
      simp [Memory.read_cons] at this
    | cons d m' =>
      obtain ⟨k', u'⟩ := d
      obtain ⟨hk', hm'⟩ := List.pairwise_cons.1 h'
      have below : Memory.read m k = none := Memory.read_of_lt hk
      have below' : Memory.read m' k' = none := Memory.read_of_lt hk'
      have key : k = k' := by
        rcases Nat.lt_trichotomy k k' with hlt | rfl | hlt
        · have h1 := e k
          rw [Memory.read_cons, if_pos rfl, Memory.read_cons, if_neg (by omega),
            Memory.read_of_lt fun c hc => Nat.lt_trans hlt (hk' c hc)] at h1
          simp at h1
        · rfl
        · have h1 := e k'
          rw [Memory.read_cons, if_neg (by omega), Memory.read_cons, if_pos rfl,
            Memory.read_of_lt fun c hc => Nat.lt_trans hlt (hk c hc)] at h1
          simp at h1
      subst key
      have val : u = u' := by simpa [Memory.read_cons] using e k
      subst val
      congr 1
      refine ih hm hm' fun a => ?_
      have h1 := e a
      simp only [Memory.read_cons] at h1
      by_cases hka : k = a
      · subst hka; rw [below, below']
      · simpa [hka] using h1

end Sys2Proof.Machine
end

