-- ==== Sys2Proof/Laws/State.lean ====
section
/-! SUPPORT. One lemma for each field of `State` under each named update, all by `rfl`, so that no proof unfolds a record update. -/

namespace Sys2Proof.Machine

/-! ## State.setBuf -/

@[simp] theorem State.setBuf_phase (s : State) (m : Memory) : (s.setBuf m).phase = s.phase := rfl
@[simp] theorem State.setBuf_reqT (s : State) (m : Memory) : (s.setBuf m).reqT = s.reqT := rfl
@[simp] theorem State.setBuf_reqL (s : State) (m : Memory) : (s.setBuf m).reqL = s.reqL := rfl
@[simp] theorem State.setBuf_lfsr (s : State) (m : Memory) : (s.setBuf m).lfsr = s.lfsr := rfl
@[simp] theorem State.setBuf_bitIdx (s : State) (m : Memory) : (s.setBuf m).bitIdx = s.bitIdx := rfl
@[simp] theorem State.setBuf_byteAcc (s : State) (m : Memory) : (s.setBuf m).byteAcc = s.byteAcc := rfl
@[simp] theorem State.setBuf_respValid (s : State) (m : Memory) : (s.setBuf m).respValid = s.respValid := rfl
@[simp] theorem State.setBuf_status (s : State) (m : Memory) : (s.setBuf m).status = s.status := rfl
@[simp] theorem State.setBuf_written (s : State) (m : Memory) : (s.setBuf m).written = s.written := rfl
@[simp] theorem State.setBuf_txbuf (s : State) (m : Memory) : (s.setBuf m).txbuf = m := rfl
@[simp] theorem State.setBuf_rst (s : State) (m : Memory) : (s.setBuf m).rst = s.rst := rfl
@[simp] theorem State.setBuf_reqValid (s : State) (m : Memory) : (s.setBuf m).reqValid = s.reqValid := rfl
@[simp] theorem State.setBuf_reqType (s : State) (m : Memory) : (s.setBuf m).reqType = s.reqType := rfl
@[simp] theorem State.setBuf_reqLen (s : State) (m : Memory) : (s.setBuf m).reqLen = s.reqLen := rfl
@[simp] theorem State.setBuf_params (s : State) (m : Memory) : (s.setBuf m).params = s.params := rfl
@[simp] theorem State.setBuf_schedule (s : State) (m : Memory) : (s.setBuf m).schedule = s.schedule := rfl
@[simp] theorem State.setBuf_contended (s : State) (m : Memory) : (s.setBuf m).contended = s.contended := rfl
@[simp] theorem State.setBuf_hostByte (s : State) (m : Memory) : (s.setBuf m).hostByte = s.hostByte := rfl
@[simp] theorem State.setBuf_hostResp (s : State) (m : Memory) : (s.setBuf m).hostResp = s.hostResp := rfl
@[simp] theorem State.setBuf_forwarded (s : State) (m : Memory) : (s.setBuf m).forwarded = s.forwarded := rfl
@[simp] theorem State.setBuf_draws (s : State) (m : Memory) : (s.setBuf m).draws = s.draws := rfl

/-! ## State.setGen -/

@[simp] theorem State.setGen_phase (s : State) (x : LfsrWord) (i : BitVec 10) (b : Byte) : (s.setGen x i b).phase = s.phase := rfl
@[simp] theorem State.setGen_reqT (s : State) (x : LfsrWord) (i : BitVec 10) (b : Byte) : (s.setGen x i b).reqT = s.reqT := rfl
@[simp] theorem State.setGen_reqL (s : State) (x : LfsrWord) (i : BitVec 10) (b : Byte) : (s.setGen x i b).reqL = s.reqL := rfl
@[simp] theorem State.setGen_lfsr (s : State) (x : LfsrWord) (i : BitVec 10) (b : Byte) : (s.setGen x i b).lfsr = x := rfl
@[simp] theorem State.setGen_bitIdx (s : State) (x : LfsrWord) (i : BitVec 10) (b : Byte) : (s.setGen x i b).bitIdx = i := rfl
@[simp] theorem State.setGen_byteAcc (s : State) (x : LfsrWord) (i : BitVec 10) (b : Byte) : (s.setGen x i b).byteAcc = b := rfl
@[simp] theorem State.setGen_respValid (s : State) (x : LfsrWord) (i : BitVec 10) (b : Byte) : (s.setGen x i b).respValid = s.respValid := rfl
@[simp] theorem State.setGen_status (s : State) (x : LfsrWord) (i : BitVec 10) (b : Byte) : (s.setGen x i b).status = s.status := rfl
@[simp] theorem State.setGen_written (s : State) (x : LfsrWord) (i : BitVec 10) (b : Byte) : (s.setGen x i b).written = s.written := rfl
@[simp] theorem State.setGen_txbuf (s : State) (x : LfsrWord) (i : BitVec 10) (b : Byte) : (s.setGen x i b).txbuf = s.txbuf := rfl
@[simp] theorem State.setGen_rst (s : State) (x : LfsrWord) (i : BitVec 10) (b : Byte) : (s.setGen x i b).rst = s.rst := rfl
@[simp] theorem State.setGen_reqValid (s : State) (x : LfsrWord) (i : BitVec 10) (b : Byte) : (s.setGen x i b).reqValid = s.reqValid := rfl
@[simp] theorem State.setGen_reqType (s : State) (x : LfsrWord) (i : BitVec 10) (b : Byte) : (s.setGen x i b).reqType = s.reqType := rfl
@[simp] theorem State.setGen_reqLen (s : State) (x : LfsrWord) (i : BitVec 10) (b : Byte) : (s.setGen x i b).reqLen = s.reqLen := rfl
@[simp] theorem State.setGen_params (s : State) (x : LfsrWord) (i : BitVec 10) (b : Byte) : (s.setGen x i b).params = s.params := rfl
@[simp] theorem State.setGen_schedule (s : State) (x : LfsrWord) (i : BitVec 10) (b : Byte) : (s.setGen x i b).schedule = s.schedule := rfl
@[simp] theorem State.setGen_contended (s : State) (x : LfsrWord) (i : BitVec 10) (b : Byte) : (s.setGen x i b).contended = s.contended := rfl
@[simp] theorem State.setGen_hostByte (s : State) (x : LfsrWord) (i : BitVec 10) (b : Byte) : (s.setGen x i b).hostByte = s.hostByte := rfl
@[simp] theorem State.setGen_hostResp (s : State) (x : LfsrWord) (i : BitVec 10) (b : Byte) : (s.setGen x i b).hostResp = s.hostResp := rfl
@[simp] theorem State.setGen_forwarded (s : State) (x : LfsrWord) (i : BitVec 10) (b : Byte) : (s.setGen x i b).forwarded = s.forwarded := rfl
@[simp] theorem State.setGen_draws (s : State) (x : LfsrWord) (i : BitVec 10) (b : Byte) : (s.setGen x i b).draws = s.draws := rfl

/-! ## State.countDraws -/

@[simp] theorem State.countDraws_phase (s : State) (n : Nat) : (s.countDraws n).phase = s.phase := rfl
@[simp] theorem State.countDraws_reqT (s : State) (n : Nat) : (s.countDraws n).reqT = s.reqT := rfl
@[simp] theorem State.countDraws_reqL (s : State) (n : Nat) : (s.countDraws n).reqL = s.reqL := rfl
@[simp] theorem State.countDraws_lfsr (s : State) (n : Nat) : (s.countDraws n).lfsr = s.lfsr := rfl
@[simp] theorem State.countDraws_bitIdx (s : State) (n : Nat) : (s.countDraws n).bitIdx = s.bitIdx := rfl
@[simp] theorem State.countDraws_byteAcc (s : State) (n : Nat) : (s.countDraws n).byteAcc = s.byteAcc := rfl
@[simp] theorem State.countDraws_respValid (s : State) (n : Nat) : (s.countDraws n).respValid = s.respValid := rfl
@[simp] theorem State.countDraws_status (s : State) (n : Nat) : (s.countDraws n).status = s.status := rfl
@[simp] theorem State.countDraws_written (s : State) (n : Nat) : (s.countDraws n).written = s.written := rfl
@[simp] theorem State.countDraws_txbuf (s : State) (n : Nat) : (s.countDraws n).txbuf = s.txbuf := rfl
@[simp] theorem State.countDraws_rst (s : State) (n : Nat) : (s.countDraws n).rst = s.rst := rfl
@[simp] theorem State.countDraws_reqValid (s : State) (n : Nat) : (s.countDraws n).reqValid = s.reqValid := rfl
@[simp] theorem State.countDraws_reqType (s : State) (n : Nat) : (s.countDraws n).reqType = s.reqType := rfl
@[simp] theorem State.countDraws_reqLen (s : State) (n : Nat) : (s.countDraws n).reqLen = s.reqLen := rfl
@[simp] theorem State.countDraws_params (s : State) (n : Nat) : (s.countDraws n).params = s.params := rfl
@[simp] theorem State.countDraws_schedule (s : State) (n : Nat) : (s.countDraws n).schedule = s.schedule := rfl
@[simp] theorem State.countDraws_contended (s : State) (n : Nat) : (s.countDraws n).contended = s.contended := rfl
@[simp] theorem State.countDraws_hostByte (s : State) (n : Nat) : (s.countDraws n).hostByte = s.hostByte := rfl
@[simp] theorem State.countDraws_hostResp (s : State) (n : Nat) : (s.countDraws n).hostResp = s.hostResp := rfl
@[simp] theorem State.countDraws_forwarded (s : State) (n : Nat) : (s.countDraws n).forwarded = s.forwarded := rfl
@[simp] theorem State.countDraws_draws (s : State) (n : Nat) : (s.countDraws n).draws = s.draws + n := rfl

/-! ## State.setSchedule -/

@[simp] theorem State.setSchedule_phase (s : State) (ts : List Turn) : (s.setSchedule ts).phase = s.phase := rfl
@[simp] theorem State.setSchedule_reqT (s : State) (ts : List Turn) : (s.setSchedule ts).reqT = s.reqT := rfl
@[simp] theorem State.setSchedule_reqL (s : State) (ts : List Turn) : (s.setSchedule ts).reqL = s.reqL := rfl
@[simp] theorem State.setSchedule_lfsr (s : State) (ts : List Turn) : (s.setSchedule ts).lfsr = s.lfsr := rfl
@[simp] theorem State.setSchedule_bitIdx (s : State) (ts : List Turn) : (s.setSchedule ts).bitIdx = s.bitIdx := rfl
@[simp] theorem State.setSchedule_byteAcc (s : State) (ts : List Turn) : (s.setSchedule ts).byteAcc = s.byteAcc := rfl
@[simp] theorem State.setSchedule_respValid (s : State) (ts : List Turn) : (s.setSchedule ts).respValid = s.respValid := rfl
@[simp] theorem State.setSchedule_status (s : State) (ts : List Turn) : (s.setSchedule ts).status = s.status := rfl
@[simp] theorem State.setSchedule_written (s : State) (ts : List Turn) : (s.setSchedule ts).written = s.written := rfl
@[simp] theorem State.setSchedule_txbuf (s : State) (ts : List Turn) : (s.setSchedule ts).txbuf = s.txbuf := rfl
@[simp] theorem State.setSchedule_rst (s : State) (ts : List Turn) : (s.setSchedule ts).rst = s.rst := rfl
@[simp] theorem State.setSchedule_reqValid (s : State) (ts : List Turn) : (s.setSchedule ts).reqValid = s.reqValid := rfl
@[simp] theorem State.setSchedule_reqType (s : State) (ts : List Turn) : (s.setSchedule ts).reqType = s.reqType := rfl
@[simp] theorem State.setSchedule_reqLen (s : State) (ts : List Turn) : (s.setSchedule ts).reqLen = s.reqLen := rfl
@[simp] theorem State.setSchedule_params (s : State) (ts : List Turn) : (s.setSchedule ts).params = s.params := rfl
@[simp] theorem State.setSchedule_schedule (s : State) (ts : List Turn) : (s.setSchedule ts).schedule = ts := rfl
@[simp] theorem State.setSchedule_contended (s : State) (ts : List Turn) : (s.setSchedule ts).contended = s.contended := rfl
@[simp] theorem State.setSchedule_hostByte (s : State) (ts : List Turn) : (s.setSchedule ts).hostByte = s.hostByte := rfl
@[simp] theorem State.setSchedule_hostResp (s : State) (ts : List Turn) : (s.setSchedule ts).hostResp = s.hostResp := rfl
@[simp] theorem State.setSchedule_forwarded (s : State) (ts : List Turn) : (s.setSchedule ts).forwarded = s.forwarded := rfl
@[simp] theorem State.setSchedule_draws (s : State) (ts : List Turn) : (s.setSchedule ts).draws = s.draws := rfl

/-! ## acceptRequest -/

@[simp] theorem acceptRequest_phase (t l : Byte) (s : State) : (acceptRequest t l s).phase = .busy := rfl
@[simp] theorem acceptRequest_reqT (t l : Byte) (s : State) : (acceptRequest t l s).reqT = t := rfl
@[simp] theorem acceptRequest_reqL (t l : Byte) (s : State) : (acceptRequest t l s).reqL = l := rfl
@[simp] theorem acceptRequest_lfsr (t l : Byte) (s : State) : (acceptRequest t l s).lfsr = s.lfsr := rfl
@[simp] theorem acceptRequest_bitIdx (t l : Byte) (s : State) : (acceptRequest t l s).bitIdx = s.bitIdx := rfl
@[simp] theorem acceptRequest_byteAcc (t l : Byte) (s : State) : (acceptRequest t l s).byteAcc = s.byteAcc := rfl
@[simp] theorem acceptRequest_respValid (t l : Byte) (s : State) : (acceptRequest t l s).respValid = false := rfl
@[simp] theorem acceptRequest_status (t l : Byte) (s : State) : (acceptRequest t l s).status = s.status := rfl
@[simp] theorem acceptRequest_written (t l : Byte) (s : State) : (acceptRequest t l s).written = s.written := rfl
@[simp] theorem acceptRequest_txbuf (t l : Byte) (s : State) : (acceptRequest t l s).txbuf = s.txbuf := rfl
@[simp] theorem acceptRequest_rst (t l : Byte) (s : State) : (acceptRequest t l s).rst = s.rst := rfl
@[simp] theorem acceptRequest_reqValid (t l : Byte) (s : State) : (acceptRequest t l s).reqValid = s.reqValid := rfl
@[simp] theorem acceptRequest_reqType (t l : Byte) (s : State) : (acceptRequest t l s).reqType = s.reqType := rfl
@[simp] theorem acceptRequest_reqLen (t l : Byte) (s : State) : (acceptRequest t l s).reqLen = s.reqLen := rfl
@[simp] theorem acceptRequest_params (t l : Byte) (s : State) : (acceptRequest t l s).params = s.params := rfl
@[simp] theorem acceptRequest_schedule (t l : Byte) (s : State) : (acceptRequest t l s).schedule = s.schedule := rfl
@[simp] theorem acceptRequest_contended (t l : Byte) (s : State) : (acceptRequest t l s).contended = [] := rfl
@[simp] theorem acceptRequest_hostByte (t l : Byte) (s : State) : (acceptRequest t l s).hostByte = s.hostByte := rfl
@[simp] theorem acceptRequest_hostResp (t l : Byte) (s : State) : (acceptRequest t l s).hostResp = s.hostResp := rfl
@[simp] theorem acceptRequest_forwarded (t l : Byte) (s : State) : (acceptRequest t l s).forwarded = s.forwarded := rfl
@[simp] theorem acceptRequest_draws (t l : Byte) (s : State) : (acceptRequest t l s).draws = s.draws := rfl

/-! ## settleWindow -/

@[simp] theorem settleWindow_phase (l : Byte) (s : State) : (settleWindow l s).phase = s.phase := rfl
@[simp] theorem settleWindow_reqT (l : Byte) (s : State) : (settleWindow l s).reqT = s.reqT := rfl
@[simp] theorem settleWindow_reqL (l : Byte) (s : State) : (settleWindow l s).reqL = s.reqL := rfl
@[simp] theorem settleWindow_lfsr (l : Byte) (s : State) : (settleWindow l s).lfsr = s.lfsr := rfl
@[simp] theorem settleWindow_bitIdx (l : Byte) (s : State) : (settleWindow l s).bitIdx = s.bitIdx := rfl
@[simp] theorem settleWindow_byteAcc (l : Byte) (s : State) : (settleWindow l s).byteAcc = s.byteAcc := rfl
@[simp] theorem settleWindow_respValid (l : Byte) (s : State) : (settleWindow l s).respValid = s.respValid := rfl
@[simp] theorem settleWindow_status (l : Byte) (s : State) : (settleWindow l s).status = s.status := rfl
@[simp] theorem settleWindow_written (l : Byte) (s : State) : (settleWindow l s).written = s.written := rfl
@[simp] theorem settleWindow_txbuf (l : Byte) (s : State) : (settleWindow l s).txbuf = s.txbuf.drawAt s.draws (s.contendedIn l) := rfl
@[simp] theorem settleWindow_rst (l : Byte) (s : State) : (settleWindow l s).rst = s.rst := rfl
@[simp] theorem settleWindow_reqValid (l : Byte) (s : State) : (settleWindow l s).reqValid = s.reqValid := rfl
@[simp] theorem settleWindow_reqType (l : Byte) (s : State) : (settleWindow l s).reqType = s.reqType := rfl
@[simp] theorem settleWindow_reqLen (l : Byte) (s : State) : (settleWindow l s).reqLen = s.reqLen := rfl
@[simp] theorem settleWindow_params (l : Byte) (s : State) : (settleWindow l s).params = s.params := rfl
@[simp] theorem settleWindow_schedule (l : Byte) (s : State) : (settleWindow l s).schedule = s.schedule := rfl
@[simp] theorem settleWindow_contended (l : Byte) (s : State) : (settleWindow l s).contended = [] := rfl
@[simp] theorem settleWindow_hostByte (l : Byte) (s : State) : (settleWindow l s).hostByte = s.hostByte := rfl
@[simp] theorem settleWindow_hostResp (l : Byte) (s : State) : (settleWindow l s).hostResp = s.hostResp := rfl
@[simp] theorem settleWindow_forwarded (l : Byte) (s : State) : (settleWindow l s).forwarded = s.forwarded := rfl
@[simp] theorem settleWindow_draws (l : Byte) (s : State) : (settleWindow l s).draws = s.draws + (s.contendedIn l).length := rfl

/-! ## respond -/

@[simp] theorem respond_phase (c : ResultCode) (w : BitVec 9) (s : State) : (respond c w s).phase = .idle := rfl
@[simp] theorem respond_reqT (c : ResultCode) (w : BitVec 9) (s : State) : (respond c w s).reqT = s.reqT := rfl
@[simp] theorem respond_reqL (c : ResultCode) (w : BitVec 9) (s : State) : (respond c w s).reqL = s.reqL := rfl
@[simp] theorem respond_lfsr (c : ResultCode) (w : BitVec 9) (s : State) : (respond c w s).lfsr = s.lfsr := rfl
@[simp] theorem respond_bitIdx (c : ResultCode) (w : BitVec 9) (s : State) : (respond c w s).bitIdx = s.bitIdx := rfl
@[simp] theorem respond_byteAcc (c : ResultCode) (w : BitVec 9) (s : State) : (respond c w s).byteAcc = s.byteAcc := rfl
@[simp] theorem respond_respValid (c : ResultCode) (w : BitVec 9) (s : State) : (respond c w s).respValid = true := rfl
@[simp] theorem respond_status (c : ResultCode) (w : BitVec 9) (s : State) : (respond c w s).status = c.code := rfl
@[simp] theorem respond_written (c : ResultCode) (w : BitVec 9) (s : State) : (respond c w s).written = w := rfl
@[simp] theorem respond_txbuf (c : ResultCode) (w : BitVec 9) (s : State) : (respond c w s).txbuf = s.txbuf := rfl
@[simp] theorem respond_rst (c : ResultCode) (w : BitVec 9) (s : State) : (respond c w s).rst = s.rst := rfl
@[simp] theorem respond_reqValid (c : ResultCode) (w : BitVec 9) (s : State) : (respond c w s).reqValid = s.reqValid := rfl
@[simp] theorem respond_reqType (c : ResultCode) (w : BitVec 9) (s : State) : (respond c w s).reqType = s.reqType := rfl
@[simp] theorem respond_reqLen (c : ResultCode) (w : BitVec 9) (s : State) : (respond c w s).reqLen = s.reqLen := rfl
@[simp] theorem respond_params (c : ResultCode) (w : BitVec 9) (s : State) : (respond c w s).params = s.params := rfl
@[simp] theorem respond_schedule (c : ResultCode) (w : BitVec 9) (s : State) : (respond c w s).schedule = s.schedule := rfl
@[simp] theorem respond_contended (c : ResultCode) (w : BitVec 9) (s : State) : (respond c w s).contended = s.contended := rfl
@[simp] theorem respond_hostByte (c : ResultCode) (w : BitVec 9) (s : State) : (respond c w s).hostByte = s.hostByte := rfl
@[simp] theorem respond_hostResp (c : ResultCode) (w : BitVec 9) (s : State) : (respond c w s).hostResp = s.hostResp := rfl
@[simp] theorem respond_forwarded (c : ResultCode) (w : BitVec 9) (s : State) : (respond c w s).forwarded = s.forwarded := rfl
@[simp] theorem respond_draws (c : ResultCode) (w : BitVec 9) (s : State) : (respond c w s).draws = s.draws := rfl

/-! ## enterReset -/

@[simp] theorem enterReset_phase (s : State) : (enterReset s).phase = .idle := rfl
@[simp] theorem enterReset_reqT (s : State) : (enterReset s).reqT = Config.freeValue 8 (s.draws + 2) := rfl
@[simp] theorem enterReset_reqL (s : State) : (enterReset s).reqL = Config.freeValue 8 (s.draws + 3) := rfl
@[simp] theorem enterReset_lfsr (s : State) : (enterReset s).lfsr = Config.freeValue 9 (s.draws + 4) := rfl
@[simp] theorem enterReset_bitIdx (s : State) : (enterReset s).bitIdx = Config.freeValue 10 (s.draws + 5) := rfl
@[simp] theorem enterReset_byteAcc (s : State) : (enterReset s).byteAcc = Config.freeValue 8 (s.draws + 6) := rfl
@[simp] theorem enterReset_respValid (s : State) : (enterReset s).respValid = false := rfl
@[simp] theorem enterReset_status (s : State) : (enterReset s).status = Config.freeValue 2 s.draws := rfl
@[simp] theorem enterReset_written (s : State) : (enterReset s).written = Config.freeValue 9 (s.draws + 1) := rfl
@[simp] theorem enterReset_txbuf (s : State) : (enterReset s).txbuf = s.txbuf.drawAt (s.draws + 7) (resetWindow s) := rfl
@[simp] theorem enterReset_rst (s : State) : (enterReset s).rst = true := rfl
@[simp] theorem enterReset_reqValid (s : State) : (enterReset s).reqValid = s.reqValid := rfl
@[simp] theorem enterReset_reqType (s : State) : (enterReset s).reqType = s.reqType := rfl
@[simp] theorem enterReset_reqLen (s : State) : (enterReset s).reqLen = s.reqLen := rfl
@[simp] theorem enterReset_params (s : State) : (enterReset s).params = s.params := rfl
@[simp] theorem enterReset_schedule (s : State) : (enterReset s).schedule = s.schedule := rfl
@[simp] theorem enterReset_contended (s : State) : (enterReset s).contended = [] := rfl
@[simp] theorem enterReset_hostByte (s : State) : (enterReset s).hostByte = s.hostByte := rfl
@[simp] theorem enterReset_hostResp (s : State) : (enterReset s).hostResp = s.hostResp := rfl
@[simp] theorem enterReset_forwarded (s : State) : (enterReset s).forwarded = s.forwarded := rfl
@[simp] theorem enterReset_draws (s : State) : (enterReset s).draws = s.draws + 7 + (resetWindow s).length := rfl

end Sys2Proof.Machine
end

