-- ==== Sys2Proof/Laws/Ops.lean ====
section
/-! SUPPORT. For each shared operation, everything it can do, said once. -/

namespace Sys2Proof.Machine

@[simp] theorem andThen_next (s : State) (f : State → Result) : andThen (.next s) f = f s := rfl

@[simp] theorem andThen_fault (e : Fault) (f : State → Result) : andThen (.fault e) f = .fault e := rfl

@[simp] theorem andThen_refused (e : Refusal) (f : State → Result) : andThen (.refused e) f = .refused e := rfl

theorem memWrite_inside {a : Nat} {s : State} (v : Byte) (h : a < s.params.cap) :
    memWrite a v s = .next (s.setBuf (s.txbuf.write a v)) := if_pos h

theorem memWrite_outside {a : Nat} {s : State} (v : Byte) (h : s.params.cap ≤ a) :
    memWrite a v s = .fault (.outsideBuffer a) := if_neg (Nat.not_lt.2 h)

@[simp] theorem setBuf_setBuf (s : State) (m m' : Memory) : (s.setBuf m).setBuf m' = s.setBuf m' := rfl

/-- Bytes that fit the buffer are all written, and nothing else changes. -/
theorem memWriteFrom_inside {a : Nat} {bs : List Byte} {s : State} (h : a + bs.length ≤ s.params.cap) :
    memWriteFrom a bs s = .next (s.setBuf (s.txbuf.writeFrom a bs)) := by
  induction bs generalizing a s with
  | nil => rfl
  | cons b bs ih =>
    rw [List.length_cons] at h
    rw [memWriteFrom, memWrite_inside b (by omega), andThen_next, ih (by simp; omega)]
    rfl

/-- The header of a request that fits is written, and nothing else changes. -/
theorem writeHeader_inside {s : State} (t l : Byte) (h : 2 ≤ s.params.cap) :
    writeHeader t l s = .next (s.setBuf ((s.txbuf.write 0 t).write 1 l)) := by
  rw [writeHeader, memWrite_inside t (by omega), andThen_next, memWrite_inside l (by simp; omega)]
  rfl

/-- The capacity check passes (R151). -/
theorem overflows_eq_false {p : Params} {l : Byte} : overflows p l = false ↔ l.toNat + 2 ≤ p.cap := by
  rw [overflows, decide_eq_false_iff_not, totalBytes, hdrBytes]
  omega

theorem overflows_eq_true {p : Params} {l : Byte} : overflows p l = true ↔ p.cap < l.toNat + 2 := by
  rw [overflows, decide_eq_true_iff, totalBytes, hdrBytes]

theorem inWindow_eq_true {p : Params} {l : Byte} {a : Nat} :
    inWindow p l a = true ↔ a < l.toNat + 2 ∧ a < p.cap := by
  rw [inWindow, decide_eq_true_iff, windowSize, Nat.lt_min, totalBytes, hdrBytes]

/-- The PRBS9 length check fails exactly for 65 bytes and more, and for none where `PRBS_LEN0` rejects (R109, R114). -/
theorem prbsRejects_eq_true {p : Params} {l : Byte} :
    prbsRejects p l = true ↔ 65 ≤ l.toNat ∨ (l = 0#8 ∧ p.prbsLen0 = .reject) := by
  rw [prbsRejects, Bool.or_eq_true, decide_eq_true_iff, Bool.and_eq_true, beq_iff_eq, beq_iff_eq, prbsMaxBits]
  exact or_congr_left (by omega)

theorem mem_contendedIn {s : State} {l : Byte} {a : Nat} :
    a ∈ s.contendedIn l ↔ a ∈ s.contended ∧ inWindow s.params l a = true := by
  simp [State.contendedIn]

/-- A successful end on a request that fits: header, draws for contended bytes, response. -/
theorem succeed_inside {s : State} (t l : Byte) (h : 2 ≤ s.params.cap) :
    succeed t l s = .next (respond .ok (writtenOk l)
      (settleWindow l (s.setBuf ((s.txbuf.write 0 t).write 1 l)))) := by
  rw [succeed, writeHeader_inside t l h, andThen_next]
  rfl

/-- A fill that fits writes the constant over the payload region and nothing else. -/
theorem fill_inside {s : State} (c l : Byte) (h : l.toNat + 2 ≤ s.params.cap) :
    fill c l s = .next (s.setBuf (s.txbuf.writeFrom 2 (List.replicate l.toNat c))) :=
  memWriteFrom_inside (by simp [payloadOffset, hdrBytes]; omega)

/-- A fill request answers an overflow or a success (R133 to R138). -/
theorem buildFill_cases (t c l : Byte) (s : State) :
    (s.params.cap < l.toNat + 2 ∧ buildFill t c l s =
      .next (respond .bufferOverflow 0 (settleWindow l s))) ∨
    (l.toNat + 2 ≤ s.params.cap ∧ buildFill t c l s =
      .next (respond .ok (writtenOk l) (settleWindow l
        (s.setBuf (((s.txbuf.writeFrom 2 (List.replicate l.toNat c)).write 0 t).write 1 l))))) := by
  unfold buildFill
  split
  next h => exact .inl ⟨overflows_eq_true.1 h, rfl⟩
  next h =>
    have h := overflows_eq_false.1 (Bool.not_eq_true _ ▸ h)
    refine .inr ⟨h, ?_⟩
    rw [fill_inside c l h, andThen_next, succeed_inside t l (by simp; omega)]
    rfl

/-- A request without a generator answers an overflow or an invalid type (R166). -/
theorem buildInvalid_cases (l : Byte) (s : State) :
    (s.params.cap < l.toNat + 2 ∧ buildInvalid l s = .next (respond .bufferOverflow 0 (settleWindow l s))) ∨
    (l.toNat + 2 ≤ s.params.cap ∧ buildInvalid l s = .next (respond .invalidPatternType 0 (settleWindow l s))) := by
  unfold buildInvalid
  split
  next h => exact .inl ⟨overflows_eq_true.1 h, rfl⟩
  next h => exact .inr ⟨overflows_eq_false.1 (Bool.not_eq_true _ ▸ h), rfl⟩

/-- A rejected generation that fits zeroes the payload region or does nothing (R110). -/
theorem prbs9Reject_inside {s : State} {l : Byte} (h : l.toNat + 2 ≤ s.params.cap) :
    prbs9Reject l s = .next (s.setBuf
      (if s.params.prezeroOnFail then s.txbuf.writeFrom 2 (List.replicate l.toNat 0x00#8) else s.txbuf)) := by
  unfold prbs9Reject
  split
  · exact memWriteFrom_inside (by simp [payloadOffset, hdrBytes]; omega)
  · rfl

theorem serialStep_out_length (g : GenRun) : (serialStep g).out.length = g.out.length := by
  simp [serialStep]

theorem serialLoop_out_length (n : Nat) (g : GenRun) : (serialLoop n g).out.length = g.out.length := by
  induction n generalizing g with
  | zero => rfl
  | succ n ih => rw [serialLoop, ih, serialStep_out_length]

@[simp] theorem serialGen_out_length (l : Nat) : (serialGen l).out.length = l := by
  simp [serialGen, serialLoop_out_length]

theorem byteLoop_out_length (n : Nat) (g : GenRun) : (byteLoop n g).out.length = g.out.length + n := by
  induction n generalizing g with
  | zero => rfl
  | succ n ih => simp only [byteLoop, ih, List.length_append, List.length_cons, List.length_nil]; omega

@[simp] theorem byteGen_out_length (l : Nat) : (byteGen l).out.length = l := by
  simp [byteGen, byteLoop_out_length]

/-- The state after the generator has run in `s` (R108, R111): its registers set, its bytes in the payload region. -/
theorem prbs9Gen_inside {s : State} {l : Byte} (h : l.toNat + 2 ≤ s.params.cap) :
    prbs9Gen l s = .next (match s.params.stepping with
      | .bitSerial =>
        let g := serialGen l.toNat
        (s.setGen g.lfsr g.bitIdx g.byteAcc).setBuf (s.txbuf.writeFrom 2 g.out)
      | .byteGranular =>
        let g := byteGen l.toNat
        ((s.setGen g.lfsr (Config.freeValue 10 s.draws) g.byteAcc).countDraws 1).setBuf (s.txbuf.writeFrom 2 g.out)) := by
  unfold prbs9Gen
  cases s.params.stepping
  · exact memWriteFrom_inside (by simp [payloadOffset, hdrBytes]; omega)
  · exact memWriteFrom_inside (by simp [payloadOffset, hdrBytes]; omega)

/-- A response is presented exactly as asked (R32, R160). -/
theorem presents_respond (c : ResultCode) (w : BitVec 9) (s : State) : Presents (respond c w s) c w :=
  ⟨rfl, rfl, rfl, rfl⟩

@[simp] theorem contendedIn_setBuf (s : State) (m : Memory) (l : Byte) :
    (s.setBuf m).contendedIn l = s.contendedIn l := rfl

@[simp] theorem contendedIn_setGen (s : State) (x : LfsrWord) (j : BitVec 10) (b l : Byte) :
    (s.setGen x j b).contendedIn l = s.contendedIn l := rfl

@[simp] theorem contendedIn_countDraws (s : State) (n : Nat) (l : Byte) :
    (s.countDraws n).contendedIn l = s.contendedIn l := rfl

/-- Settling the window touches no byte but the contended ones (R59). -/
theorem read_settleWindow {s : State} {l : Byte} {a : Nat} (h : a ∉ s.contendedIn l) :
    (settleWindow l s).txbuf.read a = s.txbuf.read a :=
  Memory.read_drawAt_other _ _ h

/-- The same for a state made from `s`, whose contended offsets it kept. -/
theorem read_settleWindow_of {s s' : State} {l : Byte} {a : Nat} (e : s'.contended = s.contended) (h : a ∉ s.contended) :
    (settleWindow l s').txbuf.read a = s'.txbuf.read a :=
  read_settleWindow fun hm => h (e ▸ (mem_contendedIn.1 hm).1)

/-- What a read finds in the buffer of a success: the header, the payload, and below and above it what was there (R65). -/
theorem read_layout (m : Memory) (bs : List Byte) (t l : Byte) (a : Nat) :
    (((m.writeFrom 2 bs).write 0 t).write 1 l).read a =
      if a = 1 then some l else if a = 0 then some t
      else if 2 ≤ a ∧ a < 2 + bs.length then bs[a - 2]? else m.read a := by
  simp only [Memory.read_write, Memory.read_writeFrom]

/-- Where nothing is contended, settling the window changes nothing. -/
theorem settleWindow_quiet {s : State} (l : Byte) (h : s.contended = []) : settleWindow l s = s := by
  have e : s.contendedIn l = [] := by simp [State.contendedIn, h]
  unfold settleWindow
  simp only [e, Memory.drawAt, List.length_nil, Nat.add_zero]
  rw [← h]

end Sys2Proof.Machine
end

