-- ==== Sys2Proof/Laws/Exec.lean ====
section
/-! SUPPORT. Everything a request can do, said once: overflow, a failure after the capacity check, or a success. -/

namespace Sys2Proof.Machine

/-- The generator's registers and bytes after a generation in `s`, by stepping (R108). -/
theorem prbs9Gen_shape {s : State} {l : Byte} (h : l.toNat + 2 ≤ s.params.cap) :
    ∃ x j b n bs, bs.length = l.toNat ∧
      (s.params.stepping = .bitSerial → bs = (serialGen l.toNat).out ∧ x = (serialGen l.toNat).lfsr ∧
        j = (serialGen l.toNat).bitIdx ∧ b = (serialGen l.toNat).byteAcc ∧ n = 0) ∧
      (s.params.stepping = .byteGranular → bs = (byteGen l.toNat).out ∧ x = (byteGen l.toNat).lfsr ∧ n = 1) ∧
      prbs9Gen l s = .next (((s.setGen x j b).countDraws n).setBuf (s.txbuf.writeFrom 2 bs)) := by
  rw [prbs9Gen_inside h]
  cases e : s.params.stepping
  · exact ⟨_, _, _, 0, _, serialGen_out_length _, fun _ => ⟨rfl, rfl, rfl, rfl, rfl⟩, (fun h => nomatch h), rfl⟩
  · exact ⟨_, _, _, 1, _, byteGen_out_length _, (fun h => nomatch h), fun _ => ⟨rfl, rfl, rfl⟩, rfl⟩

/-- `BUILD_PRBS9` overflows, violates its length limit, or succeeds with the generator's bytes (R116). -/
theorem execBuildPrbs9_cases (l : Byte) (s : State) :
    (s.params.cap < l.toNat + 2 ∧ execBuildPrbs9 l s = .next (respond .bufferOverflow 0 (settleWindow l s))) ∨
    (l.toNat + 2 ≤ s.params.cap ∧ prbsRejects s.params l = true ∧ execBuildPrbs9 l s =
      .next (respond .sequenceLengthExceeded 0 (settleWindow l (s.setBuf
        (if s.params.prezeroOnFail then s.txbuf.writeFrom 2 (List.replicate l.toNat 0x00#8) else s.txbuf))))) ∨
    (l.toNat + 2 ≤ s.params.cap ∧ prbsRejects s.params l = false ∧ ∃ x j b n bs, bs.length = l.toNat ∧
      (s.params.stepping = .bitSerial → bs = (serialGen l.toNat).out ∧ x = (serialGen l.toNat).lfsr ∧
        j = (serialGen l.toNat).bitIdx ∧ b = (serialGen l.toNat).byteAcc ∧ n = 0) ∧
      (s.params.stepping = .byteGranular → bs = (byteGen l.toNat).out ∧ x = (byteGen l.toNat).lfsr ∧ n = 1) ∧
      execBuildPrbs9 l s = .next (respond .ok (writtenOk l) (settleWindow l
        (((s.setGen x j b).countDraws n).setBuf (((s.txbuf.writeFrom 2 bs).write 0 0x00#8).write 1 l))))) := by
  unfold execBuildPrbs9
  split
  next h => exact .inl ⟨overflows_eq_true.1 h, rfl⟩
  next h =>
    have fits := overflows_eq_false.1 (Bool.not_eq_true _ ▸ h)
    split
    next hr => exact .inr (.inl ⟨fits, hr, by rw [prbs9Reject_inside fits]; rfl⟩)
    next hr =>
      obtain ⟨x, j, b, n, bs, hlen, hs, hb, e⟩ := prbs9Gen_shape fits
      refine .inr (.inr ⟨fits, Bool.not_eq_true _ ▸ hr, x, j, b, n, bs, hlen, hs, hb, ?_⟩)
      rw [e, andThen_next, succeed_inside 0x00#8 l (by simp; omega)]
      rfl

/-- A request is a fill, a request without a generator, or a PRBS9 request. -/
theorem exec_kind (i : Instr) (s : State) :
    (∃ c, exec i s = buildFill i.reqType c i.reqLen s) ∨ exec i s = buildInvalid i.reqLen s ∨ ∃ l, i = .buildPrbs9 l := by
  cases i with
  | buildPrbs9 l => exact .inr (.inr ⟨l, rfl⟩)
  | buildFill0F l => exact .inl ⟨_, rfl⟩
  | buildFill55 l => exact .inl ⟨_, rfl⟩
  | buildFillFF l => exact .inl ⟨_, rfl⟩
  | buildFill00 l => exact .inl ⟨_, rfl⟩
  | buildFillF0 l => exact .inl ⟨_, rfl⟩
  | buildFillAA l => exact .inl ⟨_, rfl⟩
  | buildInvalid03 l => exact .inr (.inl rfl)
  | buildInvalid08 t l => exact .inr (.inl rfl)
  | buildInvalid10 t l => exact .inr (.inl rfl)
  | buildInvalid20 t l => exact .inr (.inl rfl)
  | buildInvalid40 t l => exact .inr (.inl rfl)
  | buildInvalid80 t l => exact .inr (.inl rfl)

/-- What any request can do: overflow; fail after the capacity check with the buffer as it was, or zeroed where `BUILD_PRBS9` pre-zeroes;
or succeed with `L` payload bytes and the header. -/
theorem exec_cases (i : Instr) (s : State) :
    (s.params.cap < i.reqLen.toNat + 2 ∧ exec i s =
      .next (respond .bufferOverflow 0 (settleWindow i.reqLen s))) ∨
    (i.reqLen.toNat + 2 ≤ s.params.cap ∧ ∃ c m, c ≠ .ok ∧ c ≠ .bufferOverflow ∧
      (m = s.txbuf ∨ (i = .buildPrbs9 i.reqLen ∧ c = .sequenceLengthExceeded ∧ s.params.prezeroOnFail = true ∧
        m = s.txbuf.writeFrom 2 (List.replicate i.reqLen.toNat 0x00#8))) ∧
      exec i s = .next (respond c 0 (settleWindow i.reqLen (s.setBuf m)))) ∨
    (i.reqLen.toNat + 2 ≤ s.params.cap ∧ ∃ x j b n bs, bs.length = i.reqLen.toNat ∧
      exec i s = .next (respond .ok (writtenOk i.reqLen) (settleWindow i.reqLen
        (((s.setGen x j b).countDraws n).setBuf (((s.txbuf.writeFrom 2 bs).write 0 i.reqType).write 1 i.reqLen))))) := by
  rcases exec_kind i s with ⟨c, he⟩ | he | ⟨l, rfl⟩
  · rcases buildFill_cases i.reqType c i.reqLen s with ⟨h, e⟩ | ⟨h, e⟩
    · exact .inl ⟨h, he.trans e⟩
    · exact .inr (.inr ⟨h, s.lfsr, s.bitIdx, s.byteAcc, 0, _, List.length_replicate, he.trans e⟩)
  · rcases buildInvalid_cases i.reqLen s with ⟨h, e⟩ | ⟨h, e⟩
    · exact .inl ⟨h, he.trans e⟩
    · exact .inr (.inl ⟨h, .invalidPatternType, s.txbuf, by decide, by decide, .inl rfl, he.trans e⟩)
  · rcases execBuildPrbs9_cases l s with h | ⟨h, -, e⟩ | ⟨h, -, x, j, b, n, bs, hlen, -, -, e⟩
    · exact .inl h
    · refine .inr (.inl ⟨h, .sequenceLengthExceeded, _, by decide, by decide, ?_, e⟩)
      split
      next hp => exact .inr ⟨rfl, rfl, hp, rfl⟩
      next => exact .inl rfl
    · exact .inr (.inr ⟨h, x, j, b, n, bs, hlen, e⟩)

end Sys2Proof.Machine
end

