-- ==== Sys2Proof/Laws/PerInstr.lean ====
section
/-! SUPPORT. One law for each constructor of `Instr`: a request's word has the fixed bits of the request's own opcode-table row. -/

set_option autoImplicit false

namespace Sys2Proof.Laws.RowBits

/-- The word of a well-formed request selects the row the opcode table gives the request (R80). -/
def Statement (i : Instr) : Prop :=
  i.wellFormed = true → ∃ r, opcodeTable[i.row]? = some r ∧ r.selects (encode i) = true

/-- Masking the type byte of a word leaves the masked type, whatever the length. -/
theorem mkWord_and_type (t l m : Byte) : mkWord t l &&& mkWord m 0x00#8 = mkWord (t &&& m) 0x00#8 := by
  refine BitVec.eq_of_getLsbD_eq fun i _ => ?_
  simp only [BitVec.getLsbD_and, getLsbD_mkWord]
  split <;> simp

/-- A row whose mask lies in the type byte selects a word by its type alone. -/
theorem selects_of_type {t l m p : Byte} {name : String} (h : t &&& m = p) :
    OpcodeRow.selects ⟨mkWord m 0x00#8, mkWord p 0x00#8, name⟩ (mkWord t l) = true := by
  simp [OpcodeRow.selects, mkWord_and_type, h]

theorem buildPrbs9 (l : Byte) : Statement (.buildPrbs9 l) :=
  fun _ => ⟨_, rfl, selects_of_type (t := 0x00#8) (m := 0xFF#8) (p := 0x00#8) (by decide)⟩

theorem buildFill0F (l : Byte) : Statement (.buildFill0F l) :=
  fun _ => ⟨_, rfl, selects_of_type (t := 0x01#8) (m := 0xFF#8) (p := 0x01#8) (by decide)⟩

theorem buildFill55 (l : Byte) : Statement (.buildFill55 l) :=
  fun _ => ⟨_, rfl, selects_of_type (t := 0x02#8) (m := 0xFF#8) (p := 0x02#8) (by decide)⟩

theorem buildFillFF (l : Byte) : Statement (.buildFillFF l) :=
  fun _ => ⟨_, rfl, selects_of_type (t := 0x04#8) (m := 0xFF#8) (p := 0x04#8) (by decide)⟩

theorem buildFill00 (l : Byte) : Statement (.buildFill00 l) :=
  fun _ => ⟨_, rfl, selects_of_type (t := 0x05#8) (m := 0xFF#8) (p := 0x05#8) (by decide)⟩

theorem buildFillF0 (l : Byte) : Statement (.buildFillF0 l) :=
  fun _ => ⟨_, rfl, selects_of_type (t := 0x06#8) (m := 0xFF#8) (p := 0x06#8) (by decide)⟩

theorem buildFillAA (l : Byte) : Statement (.buildFillAA l) :=
  fun _ => ⟨_, rfl, selects_of_type (t := 0x07#8) (m := 0xFF#8) (p := 0x07#8) (by decide)⟩

theorem buildInvalid03 (l : Byte) : Statement (.buildInvalid03 l) :=
  fun _ => ⟨_, rfl, selects_of_type (t := 0x03#8) (m := 0xFF#8) (p := 0x03#8) (by decide)⟩

theorem buildInvalid08 (t l : Byte) : Statement (.buildInvalid08 t l) :=
  fun h => ⟨_, rfl, selects_of_type (m := 0xF8#8) (p := 0x08#8) (eq_of_beq h)⟩

theorem buildInvalid10 (t l : Byte) : Statement (.buildInvalid10 t l) :=
  fun h => ⟨_, rfl, selects_of_type (m := 0xF0#8) (p := 0x10#8) (eq_of_beq h)⟩

theorem buildInvalid20 (t l : Byte) : Statement (.buildInvalid20 t l) :=
  fun h => ⟨_, rfl, selects_of_type (m := 0xE0#8) (p := 0x20#8) (eq_of_beq h)⟩

theorem buildInvalid40 (t l : Byte) : Statement (.buildInvalid40 t l) :=
  fun h => ⟨_, rfl, selects_of_type (m := 0xC0#8) (p := 0x40#8) (eq_of_beq h)⟩

theorem buildInvalid80 (t l : Byte) : Statement (.buildInvalid80 t l) :=
  fun h => ⟨_, rfl, selects_of_type (m := 0x80#8) (p := 0x80#8) (eq_of_beq h)⟩

end Sys2Proof.Laws.RowBits
end

