-- ==== Sys2Proof/Laws/Step.lean ====
section
/-! SUPPORT. Everything a step can do, said once: the block's move by cases, each host action by cases, and the turn that is next. -/

set_option autoImplicit false

namespace Sys2Proof.Machine

/-! ## Whose turn it is -/

theorem step_of_blockNext {s : State} {rest : List Turn} (h : BlockNext s rest) : step s = blockMove (s.setSchedule rest) := by
  rcases h with ⟨h, rfl⟩ | h
  · have e : s.setSchedule [] = s := by rw [← h]; rfl
    rw [e, step, h]
  · rw [step, h]

/-- A step is the block's move or one action of the host, on the state without the turn. -/
theorem step_cases (s : State) :
    (∃ rest, BlockNext s rest ∧ step s = blockMove (s.setSchedule rest)) ∨
    ∃ a rest, s.schedule = .host a :: rest ∧ step s = hostMove a (s.setSchedule rest) := by
  cases e : s.schedule with
  | nil => exact .inl ⟨[], .inl ⟨e, rfl⟩, step_of_blockNext (.inl ⟨e, rfl⟩)⟩
  | cons turn rest =>
    cases turn with
    | block => exact .inl ⟨rest, .inr e, step_of_blockNext (.inr e)⟩
    | host a => exact .inr ⟨a, rest, rfl, by rw [step, e]⟩

/-! ## The block's move (R30 to R32, R200) -/

theorem blockMove_reset {s : State} (h : s.rst = true) : blockMove s = .next (holdReset s) := if_pos h

theorem blockMove_idle {s : State} (h : s.rst = false) (hp : s.phase = .idle) : blockMove s = .next (idleMove s) := by
  simp [blockMove, h, hp]

theorem blockMove_busy {s : State} (h : s.rst = false) (hp : s.phase = .busy) :
    blockMove s = exec (decodeWord (requestWord s)) s := by
  simp [blockMove, h, hp]

theorem idleMove_accept {s : State} (h : s.reqValid = true) : idleMove s = acceptRequest s.reqType s.reqLen s := if_pos h

theorem idleMove_wait {s : State} (h : s.reqValid = false) : idleMove s = s := by simp [idleMove, h]

/-- In reset, with the invariant's `rstQuiet`, holding changes nothing. -/
theorem holdReset_quiet {s : State} (h : s.phase = .idle ∧ s.respValid = false) : holdReset s = s := if_pos h

/-! ## The host's actions -/

/-- The window of a request in flight, as a host offset inside the buffer sees it (R58). -/
theorem guarded_eq_true {s : State} {a : Nat} (h : a < s.params.cap) :
    s.guarded a = true ↔ s.phase = .busy ∧ a < s.reqL.toNat + 2 := by
  simp only [State.guarded, Bool.and_eq_true, beq_iff_eq, inWindow_eq_true]
  exact ⟨fun g => ⟨g.1, g.2.1⟩, fun g => ⟨g.1, g.2, h⟩⟩

/-- A change of `rst`: held, entered, or released. -/
theorem hostMove_setRst_cases (level : Bool) (s : State) :
    (level = true ∧ s.rst = true ∧ hostMove (.setRst level) s = .next s) ∨
    (level = true ∧ s.rst = false ∧ hostMove (.setRst level) s = .next (enterReset s)) ∨
    (level = false ∧ hostMove (.setRst level) s = .next { s with rst := false }) := by
  cases level
  · exact .inr (.inr ⟨rfl, rfl⟩)
  · cases h : s.rst
    · exact .inr (.inl ⟨rfl, rfl, by simp [hostMove, hostSetRst, h]⟩)
    · exact .inl ⟨rfl, rfl, by simp [hostMove, hostSetRst, h]⟩

/-- A host read: outside the buffer, in the window of a request in flight, or of the byte there. -/
theorem hostMove_readBuf_cases (a : Nat) (s : State) :
    (s.params.cap ≤ a ∧ hostMove (.readBuf a) s = .fault (.outsideBuffer a)) ∨
    (a < s.params.cap ∧ s.guarded a = true ∧ hostMove (.readBuf a) s =
      .next ({ s with hostByte := some (Config.freeValue 8 s.draws) }.countDraws 1)) ∨
    (a < s.params.cap ∧ s.guarded a = false ∧ hostMove (.readBuf a) s = .next { s with hostByte := some (s.byteAt a) }) := by
  rcases Nat.lt_or_ge a s.params.cap with h | h
  · cases g : s.guarded a
    · exact .inr (.inr ⟨h, rfl, by simp [hostMove, hostReadBuf, h, g]⟩)
    · exact .inr (.inl ⟨h, rfl, by simp [hostMove, hostReadBuf, h, g]⟩)
  · exact .inl ⟨h, if_neg (Nat.not_lt.2 h)⟩

/-- A host write: outside the buffer, in the window of a request in flight, or stored. -/
theorem hostMove_writeBuf_cases (a : Nat) (v : Byte) (s : State) :
    (s.params.cap ≤ a ∧ hostMove (.writeBuf a v) s = .fault (.outsideBuffer a)) ∨
    (a < s.params.cap ∧ s.guarded a = true ∧ hostMove (.writeBuf a v) s =
      .next { s with contended := if a ∈ s.contended then s.contended else s.contended ++ [a] }) ∨
    (a < s.params.cap ∧ s.guarded a = false ∧ hostMove (.writeBuf a v) s = .next (s.setBuf (s.txbuf.write a v))) := by
  rcases Nat.lt_or_ge a s.params.cap with h | h
  · cases g : s.guarded a
    · exact .inr (.inr ⟨h, rfl, by simp [hostMove, hostWriteBuf, h, g]⟩)
    · exact .inr (.inl ⟨h, rfl, by simp [hostMove, hostWriteBuf, h, g]⟩)
  · exact .inl ⟨h, if_neg (Nat.not_lt.2 h)⟩

/-- A read of the response that answers a next state sets `hostResp` and nothing else. -/
theorem hostMove_readResp_next {s t : State} (h : hostMove .readResp s = .next t) :
    s.respValid = true ∧ t = { s with hostResp := some s.respWord } := by
  simp only [hostMove, hostReadResp] at h
  split at h
  next hv => exact ⟨hv, (Host.Outcome.next.inj h).symm⟩
  next => cases h

/-- Forwarding that answers a next state sets `forwarded` and nothing else. -/
theorem hostMove_forward_next {s t : State} (h : hostMove .forward s = .next t) :
    s.respValid = true ∧ t = { s with forwarded := if s.status = ResultCode.ok.code then s.frame else [] } := by
  simp only [hostMove, hostForward] at h
  split at h
  next hv =>
    refine ⟨hv, ?_⟩
    split at h
    next ok =>
      split at h
      · rw [if_pos ok]; exact (Host.Outcome.next.inj h).symm
      · cases h
    next bad => rw [if_neg bad]; exact (Host.Outcome.next.inj h).symm
  next => cases h

end Sys2Proof.Machine
end

