-- ==== Sys2Proof/Tests/Slice0.lean ====
section
/-! SUPPORT. Tests with expected values from the spec (95_test_vectors.md and the encoding tables), and a witness for the hypotheses of
each statement that has some. -/

set_option autoImplicit false

namespace Sys2Proof.Tests

open Sys2Proof Sys2Proof.Machine

/-! ## Helpers -/

/-- The state after reset with a buffer of `cap` bytes. -/
def box (cap : Nat) : State := { State.reset with params := { Params.default with cap := cap } }

/-- The same with `PRBS_LEN0 = reject` and `PREZERO_ON_FAIL = true`. -/
def strictBox (cap : Nat) : State :=
  { State.reset with params := { Params.default with cap := cap, prbsLen0 := .reject, prezeroOnFail := true } }

/-- A block at work on `BUILD(t, l)`. -/
def busyBox (cap : Nat) (t l : Byte) : State := acceptRequest t l (box cap)

/-- What one step of a placed request word shows: the response word and the buffer. -/
def oneStep (s : State) (w : Nat) : Option (RespWord × Memory) :=
  (Result.next? (step (s.withFetchWord 16 w))).map fun t => (t.respWord, t.txbuf)

/-- A buffer listed from offset 0. -/
def bytesFrom (a : Nat) : List Byte → Memory
  | [] => []
  | b :: bs => (a, b) :: bytesFrom (a + 1) bs

/-! ## WellFormed: one ill-formed term for each check (opcode_table.json's fixed bits) -/

theorem test_illformed_08 : (Instr.buildInvalid08 0x10#8 0#8).wellFormed = false := by decide
theorem test_illformed_10 : (Instr.buildInvalid10 0x0F#8 0#8).wellFormed = false := by decide
theorem test_illformed_20 : (Instr.buildInvalid20 0x40#8 0#8).wellFormed = false := by decide
theorem test_illformed_40 : (Instr.buildInvalid40 0x80#8 0#8).wellFormed = false := by decide
theorem test_illformed_80 : (Instr.buildInvalid80 0x7F#8 0#8).wellFormed = false := by decide

/-! ## Decoding: one word of each row, bit by bit, L then T (R70, R80; 95_test_vectors.md section 2.5) -/

theorem test_decode_prbs9 : decodeWord 0b0100000000000000#16 = .buildPrbs9 0x40#8 := by decide
theorem test_decode_fill0F : decodeWord 0b0000000000000001#16 = .buildFill0F 0x00#8 := by decide
theorem test_decode_fill55 : decodeWord 0b0000001100000010#16 = .buildFill55 0x03#8 := by decide
theorem test_decode_fillFF : decodeWord 0b0000010100000100#16 = .buildFillFF 0x05#8 := by decide
theorem test_decode_fill00 : decodeWord 0b1111111100000101#16 = .buildFill00 0xFF#8 := by decide
theorem test_decode_fillF0 : decodeWord 0b0000000100000110#16 = .buildFillF0 0x01#8 := by decide
theorem test_decode_fillAA : decodeWord 0b0000000000000111#16 = .buildFillAA 0x00#8 := by decide
theorem test_decode_invalid03 : decodeWord 0b0000000000000011#16 = .buildInvalid03 0x00#8 := by decide
theorem test_decode_invalid08 : decodeWord 0b0000000000001111#16 = .buildInvalid08 0x0F#8 0x00#8 := by decide
theorem test_decode_invalid10 : decodeWord 0b0001111100011111#16 = .buildInvalid10 0x1F#8 0x1F#8 := by decide
theorem test_decode_invalid20 : decodeWord 0b0000000000100000#16 = .buildInvalid20 0x20#8 0x00#8 := by decide
theorem test_decode_invalid40 : decodeWord 0b0000000001111111#16 = .buildInvalid40 0x7F#8 0x00#8 := by decide
theorem test_decode_invalid80 : decodeWord 0b1111111111111111#16 = .buildInvalid80 0xFF#8 0xFF#8 := by decide

/-- `FILLFF 5` is the word `0x0504` (W1); `PRBS9 64` is `0x4000` (W4). -/
theorem test_encode_words : encode (.buildFillFF 5#8) = 0x0504#16 ∧ encode (.buildPrbs9 64#8) = 0x4000#16 := by decide

/-- The type byte comes first; a lone byte is no request. -/
theorem test_decode_bytes :
    (decode [0x04#8, 0x05#8, 0xEE#8]).toOption = some (.buildFillFF 5#8, [0xEE#8]) ∧ (decode [0x04#8]).toOption = none := by
  decide

theorem test_decode_table_word :
    decodeTableWord 16 0x0504 = some (.buildFillFF 5#8) ∧ decodeTableWord 8 0x04 = some (.buildFillFF 0#8) := by decide

/-! ## The LFSR (95_test_vectors.md section 2.1, R105) -/

def lfsrInputs : List LfsrWord := [0x1FF, 0x000, 0x001, 0x010, 0x011, 0x100, 0x0FF, 0x1C1, 0x0AA, 0x155, 0x0E0]

theorem test_lfsr_step : lfsrInputs.map lfsrStep =
    [0x0FF#9, 0x000#9, 0x100#9, 0x108#9, 0x008#9, 0x080#9, 0x07F#9, 0x1E0#9, 0x055#9, 0x0AA#9, 0x070#9] := by decide

theorem test_lfsr_byte_step : lfsrInputs.map lfsrByteStep =
    [0x1C1#9, 0x000#9, 0x042#9, 0x062#9, 0x020#9, 0x021#9, 0x1E0#9, 0x0FB#9, 0x140#9, 0x081#9, 0x05C#9] := by decide

theorem test_lfsr_byte_out : lfsrInputs.map byteOut =
    [0xFF#8, 0x00#8, 0x80#8, 0x08#8, 0x88#8, 0x00#8, 0xFF#8, 0x83#8, 0x55#8, 0xAA#8, 0x07#8] := by decide

/-- The first 16 sequence bits of section 2.1. -/
theorem test_sequence_bits : (List.range 16).map prbsBit =
    [true, true, true, true, true, true, true, true, true, false, false, false, false, false, true, true] := by decide

/-! ## Requests: one step each (95_test_vectors.md sections 1 and 2) -/

/-- V8. -/
theorem test_prbs9_8 : oneStep (box 1024) 0x0800 =
    some (0x0500#16, bytesFrom 0 [0x00, 0x08, 0xFF, 0x83, 0xDF, 0x17, 0x32, 0x09, 0x4E, 0xD0]) := by decide

/-- V2: `PRBS_LEN0 = reject`. -/
theorem test_prbs9_0_rejected : oneStep (strictBox 1024) 0x0000 = some (0x0003#16, []) := by decide

/-- X3. -/
theorem test_fill0F_3 : oneStep (box 1024) 0x0301 = some (0x0280#16, bytesFrom 0 [0x01, 0x03, 0x0F, 0x0F, 0x0F]) := by decide

/-- X6. -/
theorem test_fill55_3 : oneStep (box 1024) 0x0302 = some (0x0280#16, bytesFrom 0 [0x02, 0x03, 0x55, 0x55, 0x55]) := by decide

/-- X25. -/
theorem test_fill55_overflow : oneStep (box 1) 0x0002 = some (0x0001#16, []) := by decide

/-- W1. -/
theorem test_fillFF_5 : oneStep (box 1024) 0x0504 =
    some (0x0380#16, bytesFrom 0 [0x04, 0x05, 0xFF, 0xFF, 0xFF, 0xFF, 0xFF]) := by decide

/-- W3: `FILLFF 9` at `CAP = 10`. -/
theorem test_fillFF_overflow : oneStep (box 10) 0x0904 = some (0x0001#16, []) := by decide

/-- W9. -/
theorem test_fill00_0 : oneStep (box 1024) 0x0005 = some (0x0100#16, bytesFrom 0 [0x05, 0x00]) := by decide

/-- X12. -/
theorem test_fill00_3 : oneStep (box 1024) 0x0305 = some (0x0280#16, bytesFrom 0 [0x05, 0x03, 0x00, 0x00, 0x00]) := by decide

/-- X15. -/
theorem test_fillF0_3 : oneStep (box 1024) 0x0306 = some (0x0280#16, bytesFrom 0 [0x06, 0x03, 0xF0, 0xF0, 0xF0]) := by decide

/-- X23: the exact fit at `CAP = 2`. -/
theorem test_fillF0_0 : oneStep (box 2) 0x0006 = some (0x0100#16, bytesFrom 0 [0x06, 0x00]) := by decide

/-- X18. -/
theorem test_fillAA_3 : oneStep (box 1024) 0x0307 = some (0x0280#16, bytesFrom 0 [0x07, 0x03, 0xAA, 0xAA, 0xAA]) := by decide

/-- I1. -/
theorem test_invalid03 : oneStep (box 1024) 0x0003 = some (0x0002#16, []) := by decide

/-- I8: the capacity check comes first. -/
theorem test_invalid03_overflow : oneStep (box 10) 0x0903 = some (0x0001#16, []) := by decide

/-- I3. -/
theorem test_invalid08 : oneStep (box 1024) 0x0308 = some (0x0002#16, []) := by decide

/-- I5. -/
theorem test_invalid10 : oneStep (box 1024) 0x0110 = some (0x0002#16, []) := by decide

/-- R166, `T = 0x20`. -/
theorem test_invalid20 : oneStep (box 1024) 0x0020 = some (0x0002#16, []) := by decide

/-- R166, `T = 0x7F`. -/
theorem test_invalid40 : oneStep (box 1024) 0x007F = some (0x0002#16, []) := by decide

/-- I9. -/
theorem test_invalid80 : oneStep (box 10) 0x08FF = some (0x0002#16, []) := by decide

/-- V14 in small: a violation with `PREZERO_ON_FAIL` zeroes the payload region and nothing else. -/
theorem test_prezero : (oneStep (strictBox 1024) 0x4100).map (fun x =>
    (x.1, x.2.read 1, x.2.read 2, x.2.read 66, x.2.read 67)) =
      some (0x0003#16, none, some 0x00#8, some 0x00#8, none) := by decide

/-- V10's bytes from the byte-granular stepping: the same as from the bit-serial one. -/
theorem test_both_steppings : (byteGen 16).out =
    [0xFF, 0x83, 0xDF, 0x17, 0x32, 0x09, 0x4E, 0xD1, 0xE7, 0xCD, 0x8A, 0x91, 0xC6, 0xD5, 0xC4, 0xC4] ∧
    (serialGen 16).out = (byteGen 16).out := by decide

/-- The reference function on P5's first request (`PRBS9 65`, `CAP = 80`, pre-zero): code 3, `WRITTEN` 0. -/
theorem test_build_prezero : (fun r : BuildResult => (r.code, r.written, r.buf.length))
    (build 0x00#8 65#8 (strictBox 80).params []) = (.sequenceLengthExceeded, 0#9, 65) := by decide

/-- The response words of section 2.5. -/
theorem test_response_words :
    respWordOf 2#9 0#2 = 0x0100#16 ∧ respWordOf 66#9 0#2 = 0x2100#16 ∧ respWordOf 257#9 0#2 = 0x8080#16 ∧
      respWordOf 0#9 3#2 = 0x0003#16 := by decide

/-! ## The assembler (R81; the words of 95_test_vectors.md) -/

theorem test_assemble_general : (assembleLine "BUILD 0x08, 3 ; word 0x0308".toList).toOption = some (some 0x0308#16) := by decide
theorem test_assemble_pseudo : (assembleLine "PRBS9 10              ; word 0x0A00".toList).toOption = some (some 0x0A00#16) := by
  decide
theorem test_assemble_comment : (assembleLine "; text".toList).toOption = some none := by decide
theorem test_assemble_range : (assembleLine "FILLFF 256".toList).toOption = none := by decide

/-! ## Witnesses: states and operands that meet the hypotheses of each statement, at the edges of its clauses -/

theorem witness_DecodeAfterEncode :
    (Instr.buildPrbs9 0xFF#8).wellFormed = true ∧ (Instr.buildInvalid08 0x08#8 0#8).wellFormed = true ∧
    (Instr.buildInvalid08 0x0F#8 0#8).wellFormed = true ∧ (Instr.buildInvalid10 0x1F#8 0#8).wellFormed = true ∧
    (Instr.buildInvalid20 0x3F#8 0#8).wellFormed = true ∧ (Instr.buildInvalid40 0x7F#8 0#8).wellFormed = true ∧
    (Instr.buildInvalid80 0x80#8 0#8).wellFormed = true ∧ (Instr.buildInvalid80 0xFF#8 0#8).wellFormed = true := by decide

theorem witness_OneOpcodeRowSelectsEachWord :
    opcodeTable[0]? = some ⟨0x00FF#16, 0x0000#16, "BUILD_PRBS9"⟩ ∧
    OpcodeRow.selects ⟨0x00FF#16, 0x0000#16, "BUILD_PRBS9"⟩ 0x4000#16 = true ∧
    opcodeTable[12]? = some ⟨0x0080#16, 0x0080#16, "BUILD_INVALID"⟩ ∧
    OpcodeRow.selects ⟨0x0080#16, 0x0080#16, "BUILD_INVALID"⟩ 0x407F#16 = false := by decide

theorem witness_PseudoRequestsAssemble :
    (AsmRequest.build 255 255, 255) ∈ [(AsmRequest.build 255 255, 255), (.prbs9 255, 0x00)] ∧
    (255 ≤ 255 ∧ 255 ≤ 255) ∧ ¬ (256 ≤ 255 ∧ 0 ≤ 255) ∧ ¬ (0 ≤ 255 ∧ 256 ≤ 255) := by decide

theorem witness_LfsrPeriodIs511 : (1#9 : LfsrWord) ≠ 0#9 ∧ (0x1FF#9 : LfsrWord) ≠ 0#9 := by decide

theorem witness_Prbs9RequestWritesSequence :
    (1 ≤ (1#8 : Byte).toNat ∧ (1#8 : Byte).toNat ≤ 64 ∧ (1#8 : Byte).toNat + 2 ≤ (box 3).params.cap) ∧
    (1 ≤ (64#8 : Byte).toNat ∧ (64#8 : Byte).toNat ≤ 64 ∧ (64#8 : Byte).toNat + 2 ≤ (box 66).params.cap) ∧
    0 ∉ (box 66).contended ∧ 1 ∉ (box 66).contended ∧ 63 < (64#8 : Byte).toNat ∧ payloadOffset 63 ∉ (box 66).contended := by
  decide

theorem witness_Prbs9LastBitStaysZero :
    1 ≤ (64#8 : Byte).toNat ∧ (64#8 : Byte).toNat ≤ 64 ∧ (64#8 : Byte).toNat + 2 ≤ (box 66).params.cap ∧
      (64#8 : Byte).toNat + 1 ∉ (box 66).contended := by decide

theorem witness_Prbs9RejectedExactlyBeyond511Bits :
    (64#8 : Byte).toNat + 2 ≤ (box 66).params.cap ∧ (65#8 : Byte).toNat + 2 ≤ (box 67).params.cap ∧
      (0#8 : Byte).toNat + 2 ≤ (strictBox 2).params.cap := by decide

theorem witness_Prbs9LengthViolation :
    ((65#8 : Byte).toNat + 2 ≤ (box 67).params.cap ∧ 65 ≤ (65#8 : Byte).toNat ∧ (box 67).params.prezeroOnFail = false) ∧
    ((255#8 : Byte).toNat + 2 ≤ (strictBox 257).params.cap ∧ 65 ≤ (255#8 : Byte).toNat ∧
      (strictBox 257).params.prezeroOnFail = true ∧ payloadOffset 254 ∉ (strictBox 257).contended) ∧
    ((0#8 : Byte).toNat + 2 ≤ (strictBox 2).params.cap ∧ (0#8 : Byte).toNat = 0 ∧ (strictBox 2).params.prbsLen0 = .reject) := by
  decide

theorem witness_Prbs9LengthZero :
    2 ≤ (box 2).params.cap ∧ (box 2).params.prbsLen0 = .accept ∧
      2 ≤ (strictBox 2).params.cap ∧ (strictBox 2).params.prbsLen0 = .reject := by decide

theorem witness_BitSerialGenerationRegisters :
    (box 66).params.stepping = .bitSerial ∧ (64#8 : Byte).toNat + 2 ≤ (box 66).params.cap ∧ (64#8 : Byte).toNat ≤ 64 ∧
      (box 66).params.prbsLen0 = .accept ∧ (0#8 : Byte).toNat + 2 ≤ (box 66).params.cap := by decide

/-- An outcome with a next state, to name in a hypothesis. -/
theorem next_of_next? {r : Result} (h : r.next?.isSome = true) : ∃ t, r = .next t ∧ r.next? = some t := by
  cases r with
  | next s => exact ⟨s, rfl, rfl⟩
  | fault e => simp [Result.next?] at h
  | refused e => simp [Result.next?] at h

/-- A property of the next state, by evaluation. -/
theorem next_with {r : Result} (p : State → Bool) (h : (r.next?.map p) = some true) : ∃ t, r = .next t ∧ p t = true := by
  cases r with
  | next s => exact ⟨s, rfl, by simpa [Result.next?] using h⟩
  | fault e => simp [Result.next?] at h
  | refused e => simp [Result.next?] at h

theorem witness_Prbs9Frame_success :
    ∃ t, exec (.buildPrbs9 1#8) (box 3) = .next t ∧ decide (t.status = ResultCode.ok.code) = true :=
  next_with _ (by decide)

theorem witness_Prbs9Frame_violation :
    ∃ t, exec (.buildPrbs9 65#8) (box 67) = .next t ∧
      decide (t.status = ResultCode.sequenceLengthExceeded.code ∧ t.params.prezeroOnFail = false) = true :=
  next_with _ (by decide)

theorem witness_Prbs9Frame_prezero :
    ∃ t, exec (.buildPrbs9 65#8) (strictBox 67) = .next t ∧
      decide (t.status = ResultCode.sequenceLengthExceeded.code ∧ t.params.prezeroOnFail = true) = true :=
  next_with _ (by decide)

theorem witness_FillRequestsWriteConstant :
    ((Instr.buildFill0F 255#8, 0x01#8, 0x0F#8) ∈ fillRows 255#8 ∧ (255#8 : Byte).toNat + 2 ≤ (box 257).params.cap) ∧
    ((Instr.buildFillAA 0#8, 0x07#8, 0xAA#8) ∈ fillRows 0#8 ∧ (0#8 : Byte).toNat + 2 ≤ (box 2).params.cap) ∧
    0 ∉ (box 257).contended ∧ payloadOffset 254 ∉ (box 257).contended := by decide

theorem witness_FillFrame :
    (Instr.buildFillFF 1#8, 0x04#8, 0xFF#8) ∈ fillRows 1#8 ∧
    (∃ t, exec (.buildFillFF 1#8) (box 3) = .next t ∧ decide (t.status = ResultCode.ok.code) = true) ∧
    (∃ t, exec (.buildFillFF 1#8) (box 2) = .next t ∧ decide (t.status = ResultCode.bufferOverflow.code) = true) :=
  ⟨by decide, next_with _ (by decide), next_with _ (by decide)⟩

theorem witness_InvalidRequestsReportInvalidType :
    Instr.buildInvalid03 9#8 ∈ invalidRows 0x03#8 9#8 ∧ Instr.buildInvalid80 0xFF#8 255#8 ∈ invalidRows 0xFF#8 255#8 ∧
      (box 10).params.cap < (9#8 : Byte).toNat + 2 ∧ ¬ (box 11).params.cap < (9#8 : Byte).toNat + 2 := by decide

theorem witness_InvalidFrame :
    Instr.buildInvalid08 0x08#8 8#8 ∈ invalidRows 0x08#8 8#8 ∧
    (∃ t, exec (.buildInvalid08 0x08#8 8#8) (box 10) = .next t ∧ decide (t.status = ResultCode.invalidPatternType.code) = true) ∧
    (∃ t, exec (.buildInvalid08 0x08#8 8#8) (box 9) = .next t ∧ decide (t.status = ResultCode.bufferOverflow.code) = true) :=
  ⟨by decide, next_with _ (by decide), next_with _ (by decide)⟩

theorem witness_OverflowReportedFirst :
    (box 1).params.cap < (Instr.buildPrbs9 0#8).reqLen.toNat + 2 ∧
      (box 256).params.cap < (Instr.buildInvalid80 0xFF#8 255#8).reqLen.toNat + 2 := by decide

theorem witness_ReportedResultFollowsCheckOrder :
    (Instr.buildPrbs9 65#8).wellFormed = true ∧ (Instr.buildInvalid08 0x08#8 0#8).wellFormed = true ∧
      (Instr.buildFillAA 255#8).wellFormed = true := by decide

theorem witness_EveryRequestIsBuild :
    (Instr.buildInvalid40 0x40#8 7#8).wellFormed = true ∧ (Instr.buildPrbs9 64#8).wellFormed = true ∧
      (box 66).contended = [] := by decide

theorem witness_HeaderOfEverySuccess :
    (∃ t, exec (.buildPrbs9 0#8) (box 2) = .next t ∧ decide (t.status = ResultCode.ok.code) = true) ∧
      0 ∉ (box 2).contended ∧ 1 ∉ (box 2).contended :=
  ⟨next_with _ (by decide), by decide, by decide⟩

theorem witness_RequestsStayInsideBuffer :
    (∀ c ∈ (box 0).txbuf, c.1 < (box 0).params.cap) ∧
      ∀ c ∈ ({ box 4 with txbuf := [(3, 0xEE#8)] } : State).txbuf, c.1 < (box 4).params.cap := by decide

theorem witness_OutcomeIndependentOfHistory :
    let s := box 3
    let s' : State := { busyBox 3 0x02#8 1#8 with
      lfsr := 0x0AA, status := 2, txbuf := [(2, 0xEE#8)], params := { (box 3).params with stepping := .byteGranular } }
    s'.params.cap = s.params.cap ∧ s'.params.prbsLen0 = s.params.prbsLen0 ∧
      s'.params.prezeroOnFail = s.params.prezeroOnFail ∧ s.contended = [] ∧ s'.contended = [] ∧ s ≠ s' := by decide

theorem witness_RepeatedRequestIsIdempotent : (box 3).contended = [] := by decide

theorem witness_ErrorsReachableByCapacity :
    (box 256).params.cap ≤ 256 ∧ ¬ (box 257).params.cap ≤ 256 ∧ 67 ≤ (box 67).params.cap ∧ ¬ 67 ≤ (box 66).params.cap ∧
      (box 67).params.prbsLen0 = .accept := by decide

theorem witness_StepRunsDecodedRequest :
    let s := busyBox 16 0x10#8 5#8
    s.rst = false ∧ s.phase = .busy ∧ s.schedule = [] ∧ (s.setSchedule [.block]).schedule = [Turn.block] ∧
      (Instr.buildInvalid10 0x10#8 5#8).wellFormed = true ∧ s.reqT = (Instr.buildInvalid10 0x10#8 5#8).reqType ∧
      s.reqL = (Instr.buildInvalid10 0x10#8 5#8).reqLen := by decide

/-- A host turn with the block at work, and one with it IDLE. -/
theorem witness_StepRunsHostTurn :
    ({ busyBox 4 0x04#8 1#8 with schedule := [.host (.setRst true), .block] } : State).schedule =
      .host (.setRst true) :: [.block] ∧
    ({ box 4 with schedule := [.host (.drive true 0x04#8 1#8)] } : State).schedule = [.host (.drive true 0x04#8 1#8)] := by
  decide

theorem witness_FetchedWordRunsNext :
    (Instr.buildInvalid20 0x3F#8 255#8).wellFormed = true ∧ (Instr.buildPrbs9 0#8).wellFormed = true := by decide

/-- Both ways the block's turn can be next, with and without a request. -/
theorem witness_AcceptanceLatchesRequest :
    BlockNext (box 16) [] ∧ BlockNext { box 16 with schedule := [.block, .host .forward] } [.host .forward] ∧
    (box 16).rst = false ∧ (box 16).phase = .idle ∧ (box 16).reqValid = false ∧
      ({ box 16 with reqValid := true, reqType := 0x04, reqLen := 5 } : State).reqValid = true :=
  ⟨.inl ⟨rfl, rfl⟩, .inr rfl, by decide, by decide, by decide, by decide⟩

theorem witness_BusyIgnoresRequestPorts :
    (busyBox 16 0x04#8 5#8).phase = .busy ∧ (busyBox 16 0x04#8 5#8).rst = false ∧ (busyBox 16 0x04#8 5#8).schedule = [] ∧
      ∃ t, step (busyBox 16 0x04#8 5#8) = .next t ∧ decide (t.phase = .idle) = true :=
  ⟨by decide, by decide, by decide, next_with _ (by decide)⟩

theorem witness_BusyMoveCompletesWithBuild :
    (busyBox 16 0x00#8 14#8).schedule = [] ∧ (busyBox 16 0x00#8 14#8).rst = false ∧ (busyBox 16 0x00#8 14#8).phase = .busy ∧
      (busyBox 16 0x00#8 14#8).contended = [] := by decide

/-- A block that presents a response: `FILLFF 1` done at `CAP = 3` (X8). -/
def doneBox : State :=
  { box 3 with
    respValid := true, status := 0, written := 3, reqT := 0x04, reqL := 1
    txbuf := [(0, 0x04#8), (1, 0x01#8), (2, 0xFF#8)] }

theorem doneBox_inv : Inv doneBox :=
  ⟨by decide, by decide, by decide, by decide, by decide, by decide⟩

theorem busyBox_inv : Inv (busyBox 0 0x04#8 5#8) :=
  ⟨by decide, by decide, by decide, by decide, by decide, by decide⟩

/-- The three outcomes of the statement: the response kept on a wait, cleared by an acceptance, cleared by a reset. -/
theorem witness_ResponsePersists :
    doneBox.respValid = true ∧ doneBox.phase = .idle ∧ doneBox.rst = false ∧
    (∃ t, step doneBox = .next t ∧ decide (t.respValid = true) = true) ∧
    (∃ t, step { doneBox with reqValid := true } = .next t ∧ decide (t.phase = .busy ∧ t.respValid = false) = true) ∧
    (∃ t, step { doneBox with schedule := [.host (.setRst true)] } = .next t ∧ decide (t.rst = true ∧ t.respValid = false) = true) :=
  ⟨by decide, by decide, by decide, next_with _ (by decide), next_with _ (by decide), next_with _ (by decide)⟩

/-- `FILLFF 5` at `CAP = 0` changes `STATUS` from 0 to 1. -/
theorem witness_StatusWrittenOnlyAtCompletion :
    Inv (busyBox 0 0x04#8 5#8) ∧ ∃ t, step (busyBox 0 0x04#8 5#8) = .next t ∧
      decide (t.status ≠ (busyBox 0 0x04#8 5#8).status) = true :=
  ⟨busyBox_inv, next_with _ (by decide)⟩

theorem witness_ParametersNeverChange : ∃ t, step (busyBox 3 0x04#8 1#8) = .next t ∧ decide (t.phase = .idle) = true :=
  next_with _ (by decide)

theorem witness_EveryStepKeepsInvariant :
    Inv doneBox ∧ Inv (busyBox 0 0x04#8 5#8) ∧ (∃ t, step { doneBox with reqValid := true } = .next t ∧ decide (t.phase = .busy) = true) ∧
      ∃ t, step (busyBox 0 0x04#8 5#8) = .next t ∧ decide (t.respValid = true) = true :=
  ⟨doneBox_inv, busyBox_inv, next_with _ (by decide), next_with _ (by decide)⟩

/-- In flight, the first offset outside the window of `FILLFF 1` is 3; in IDLE every offset is outside. -/
theorem witness_ResetAbandonsRequest :
    (busyBox 4 0x04#8 1#8).rst = false ∧ (busyBox 4 0x04#8 1#8).phase = .busy ∧
    min ((busyBox 4 0x04#8 1#8).reqL.toNat + 2) (busyBox 4 0x04#8 1#8).params.cap ≤ 3 ∧
    doneBox.rst = false ∧ doneBox.phase ≠ .busy := by decide

theorem witness_HeldInReset :
    Inv { box 4 with rst := true } ∧ ({ box 4 with rst := true } : State).rst = true ∧
      BlockNext { box 4 with rst := true } [] ∧ BlockNext { box 4 with rst := true, schedule := [.block] } [] :=
  ⟨⟨by decide, by decide, by decide, by decide, by decide, by decide⟩, by decide, .inl ⟨rfl, rfl⟩, .inr rfl⟩

/-- An IDLE block, at both ends of the buffer; and a block at work, at the first offset outside the window of `FILLFF 1`. -/
theorem witness_HostWriteStoresByte :
    (0 < doneBox.params.cap ∧ ¬ (doneBox.phase = .busy ∧ 0 < doneBox.reqL.toNat + 2)) ∧
    (2 < doneBox.params.cap ∧ ¬ (doneBox.phase = .busy ∧ 2 < doneBox.reqL.toNat + 2)) ∧ Memory.wf doneBox.txbuf ∧
    (3 < (busyBox 4 0x04#8 1#8).params.cap ∧
      ¬ ((busyBox 4 0x04#8 1#8).phase = .busy ∧ 3 < (busyBox 4 0x04#8 1#8).reqL.toNat + 2)) := by decide

/-- The window of `FILLFF 1` at `CAP = 4` ends between offsets 2 and 3; in IDLE there is none. -/
theorem witness_HostReadFollowsWindow :
    2 < (busyBox 4 0x04#8 1#8).params.cap ∧ 3 < (busyBox 4 0x04#8 1#8).params.cap ∧
    ((busyBox 4 0x04#8 1#8).phase = .busy ∧ 2 < (busyBox 4 0x04#8 1#8).reqL.toNat + 2) ∧
    ¬ ((busyBox 4 0x04#8 1#8).phase = .busy ∧ 3 < (busyBox 4 0x04#8 1#8).reqL.toNat + 2) ∧
    ¬ (doneBox.phase = .busy ∧ 2 < doneBox.reqL.toNat + 2) ∧ 2 < doneBox.params.cap := by decide

theorem witness_HostWriteDuringBusy :
    (busyBox 4 0x04#8 1#8).phase = .busy ∧ (Instr.buildFillFF 1#8).reqLen = (busyBox 4 0x04#8 1#8).reqL ∧
    2 < (busyBox 4 0x04#8 1#8).params.cap ∧ 3 < (busyBox 4 0x04#8 1#8).params.cap ∧
    (busyBox 4 0x04#8 1#8).reqL.toNat + 2 ≤ 3 ∧ ¬ (busyBox 4 0x04#8 1#8).reqL.toNat + 2 ≤ 2 := by decide

theorem witness_ReadAfterCompletionGivesBuiltByte :
    (Instr.buildFillFF 1#8).wellFormed = true ∧ (box 4).contended = [] ∧ 0 < (box 4).params.cap ∧ 3 < (box 4).params.cap := by
  decide

theorem witness_ResponseReadOnlyWhileValid : doneBox.respValid = true ∧ State.reset.respValid = false := by decide

theorem witness_ForwardHandsOverWrittenBytes :
    (Instr.buildFillFF 1#8).wellFormed = true ∧ (box 3).contended = [] ∧
    (∃ t, exec (.buildFillFF 1#8) (box 3) = .next t ∧ decide (t.status = ResultCode.ok.code) = true) ∧
    (∃ t, exec (.buildFillFF 1#8) (box 2) = .next t ∧ decide (t.status ≠ ResultCode.ok.code) = true) :=
  ⟨by decide, by decide, next_with _ (by decide), next_with _ (by decide)⟩

/-- Every kind of turn, kept at the edge of its duty. -/
theorem witness_DutifulHostNeverStops :
    Inv doneBox ∧ dutyKept doneBox = true ∧
    dutyKept { doneBox with schedule := [.host (.drive true 0x00#8 1#8)] } = true ∧
    dutyKept { doneBox with schedule := [.host (.readBuf 2)] } = true ∧
    dutyKept { doneBox with schedule := [.host .forward] } = true ∧
    dutyKept { busyBox 4 0x04#8 1#8 with schedule := [.host (.writeBuf 3 0x00#8)] } = true ∧
    dutyKept { busyBox 4 0x04#8 1#8 with schedule := [.host (.writeBuf 2 0x00#8)] } = false :=
  ⟨doneBox_inv, by decide, by decide, by decide, by decide, by decide, by decide⟩

theorem witness_DutifulRunsDrawNoFreeValue :
    Inv (busyBox 0 0x04#8 5#8) ∧ (busyBox 0 0x04#8 5#8).contended = [] ∧
    (busyBox 0 0x04#8 5#8).params.stepping = .bitSerial ∧ (busyBox 0 0x04#8 5#8).rst = false ∧
    dutyKept (busyBox 0 0x04#8 5#8) = true ∧
    ∃ t, step (busyBox 0 0x04#8 5#8) = .next t ∧ decide (t.rst = false) = true :=
  ⟨busyBox_inv, by decide, by decide, by decide, by decide, next_with _ (by decide)⟩

/-- A completion; a wait; a host write outside the window of a request in flight; a host read. -/
theorem witness_DutifulHostSeesBuiltBuffer :
    (Inv (busyBox 0 0x04#8 5#8) ∧ (busyBox 0 0x04#8 5#8).contended = [] ∧ (busyBox 0 0x04#8 5#8).rst = false ∧
      dutyKept (busyBox 0 0x04#8 5#8) = true ∧
      ∃ t, step (busyBox 0 0x04#8 5#8) = .next t ∧ decide (t.rst = false ∧ t.phase = .idle) = true) ∧
    (∃ t, step doneBox = .next t ∧ decide (t.rst = false ∧ dutyKept doneBox = true) = true) ∧
    (∃ t, step { busyBox 4 0x04#8 1#8 with schedule := [.host (.writeBuf 3 0xEE#8)] } = .next t ∧
      decide (t.rst = false ∧ t.phase = .busy ∧ t.txbuf.read 3 = some 0xEE#8) = true) ∧
    (∃ t, step { doneBox with schedule := [.host (.readBuf 2)] } = .next t ∧
      decide (t.rst = false ∧ t.hostByte = some 0xFF#8) = true) :=
  ⟨⟨busyBox_inv, by decide, by decide, by decide, next_with _ (by decide)⟩, next_with _ (by decide), next_with _ (by decide),
    next_with _ (by decide)⟩

/-- `AW` at the capacities R8 names (1 for 0, 1 and 2), and its default 10 for 1024. -/
theorem witness_AddressWidthCarriesEveryOffset :
    addrWidth (box 0).params = 1 ∧ addrWidth (box 1).params = 1 ∧ addrWidth (box 2).params = 1 ∧
    addrWidth (box 3).params = 2 ∧ addrWidth (box 1024).params = 10 ∧ 1023 < (box 1024).params.cap := by decide

end Sys2Proof.Tests
end

