-- ==== Sys2Proof/Proofs/AddressWidth.lean ====
section
/-! PROOFS. `AW` of R8: what `ceilLog2` and `addrWidth` bound, and the statement about them. -/

namespace Sys2Proof.Machine

/-- The bound that determines `ceilLog2`: it is the least exponent whose power of two reaches `n`. -/
theorem ceilLog2_le_iff_le_two_pow (n k : Nat) : ceilLog2 n ≤ k ↔ n ≤ 2 ^ k := by
  unfold ceilLog2
  split
  case isTrue hn =>
    have hpow : 1 ≤ 2 ^ k := Nat.one_le_two_pow
    omega
  case isFalse hn =>
    have hlog : Nat.log2 (n - 1) < k ↔ n - 1 < 2 ^ k := Nat.log2_lt (by omega)
    omega

theorem ceilLog2_eq_clog (n : Nat) : ceilLog2 n = Nat.clog 2 n :=
  eq_of_forall_ge_iff fun k => by
    rw [ceilLog2_le_iff_le_two_pow, Nat.clog_le_iff_le_pow Nat.one_lt_two]

theorem cap_le_two_pow_addrWidth (p : Params) : p.cap ≤ 2 ^ addrWidth p :=
  have hlog : ceilLog2 (max p.cap 1) ≤ addrWidth p := le_max_right _ _
  (le_max_left _ _).trans ((ceilLog2_le_iff_le_two_pow _ _).mp hlog)

/-- Settles O52: `ceilLog2` is Mathlib's `Nat.clog 2`, and `CAP` is at most 2 to the `AW`. -/
theorem addressWidthCarriesEveryOffset : Obligations.AddressWidthCarriesEveryOffset := by
  intro p
  constructor
  · rw [addrWidth, ceilLog2_eq_clog]
  · intro a ha
    exact ha.trans_le (cap_le_two_pow_addrWidth p)

end Sys2Proof.Machine
end

