-- ==== Sys2Proof/Proofs/Decoder.lean ====
section
/-! PROOFS. The decoder on each range of type codes, and its round trip with the encoder. -/

set_option autoImplicit false

namespace Sys2Proof

/-- The last five rows of the opcode table, told apart by the high bits of the type, are ranges of type codes (R80, R166). -/
theorem and_highBits_eq_iff (t : Byte) :
    (t &&& 0xF8#8 = 0x08#8 ↔ 8 ≤ t.toNat ∧ t.toNat < 16) ∧
    (t &&& 0xF0#8 = 0x10#8 ↔ 16 ≤ t.toNat ∧ t.toNat < 32) ∧
    (t &&& 0xE0#8 = 0x20#8 ↔ 32 ≤ t.toNat ∧ t.toNat < 64) ∧
    (t &&& 0xC0#8 = 0x40#8 ↔ 64 ≤ t.toNat ∧ t.toNat < 128) ∧
    (t &&& 0x80#8 = 0x80#8 ↔ 128 ≤ t.toNat) := by
  revert t
  decide

theorem byte_ne_of_toNat_lt {t k : Byte} (h : k.toNat < t.toNat) : t ≠ k := by
  rintro rfl
  omega

theorem byte_cases_of_toNat_lt_eight {t : Byte} (h : t.toNat < 8) : t ∈ [0#8, 1#8, 2#8, 3#8, 4#8, 5#8, 6#8, 7#8] := by
  revert t
  decide

@[simp] theorem wordType_encode (i : Instr) : wordType (encode i) = i.reqType := wordType_mkWord _ _

@[simp] theorem wordLen_encode (i : Instr) : wordLen (encode i) = i.reqLen := wordLen_mkWord _ _

/-- The rows with one type code each (R80). -/
theorem decodeWord_of_lt_eight {w : ReqWord} (h : (wordType w).toNat < 8) :
    (wordType w, decodeWord w) ∈
      [ (0x00#8, Instr.buildPrbs9 (wordLen w)), (0x01#8, .buildFill0F (wordLen w)), (0x02#8, .buildFill55 (wordLen w)),
        (0x03#8, .buildInvalid03 (wordLen w)), (0x04#8, .buildFillFF (wordLen w)), (0x05#8, .buildFill00 (wordLen w)),
        (0x06#8, .buildFillF0 (wordLen w)), (0x07#8, .buildFillAA (wordLen w)) ] := by
  have ht := byte_cases_of_toNat_lt_eight h
  simp only [List.mem_cons, List.not_mem_nil, or_false] at ht
  rcases ht with ht | ht | ht | ht | ht | ht | ht | ht <;> simp [decodeWord, ht]

/-- From type code 8 on, only the five ranges are left. -/
theorem decodeWord_of_eight_le {w : ReqWord} (h : 8 ≤ (wordType w).toNat) :
    decodeWord w =
      if (wordType w).toNat < 16 then .buildInvalid08 (wordType w) (wordLen w)
      else if (wordType w).toNat < 32 then .buildInvalid10 (wordType w) (wordLen w)
      else if (wordType w).toNat < 64 then .buildInvalid20 (wordType w) (wordLen w)
      else if (wordType w).toNat < 128 then .buildInvalid40 (wordType w) (wordLen w)
      else .buildInvalid80 (wordType w) (wordLen w) := by
  obtain ⟨h08, h10, h20, h40, -⟩ := and_highBits_eq_iff (wordType w)
  have ne (k : Byte) (hk : k.toNat < 8) : wordType w ≠ k := byte_ne_of_toNat_lt (by omega)
  simp only [decodeWord, if_neg (ne 0#8 (by decide)), if_neg (ne 1#8 (by decide)), if_neg (ne 2#8 (by decide)),
    if_neg (ne 3#8 (by decide)), if_neg (ne 4#8 (by decide)), if_neg (ne 5#8 (by decide)), if_neg (ne 6#8 (by decide)),
    if_neg (ne 7#8 (by decide)), h08, h10, h20, h40]
  grind

/-- Decoding takes no bit of the word away (R70, R78), and gives a well-formed request: a type that is in no row before the last
has the last row's bit set. -/
theorem decodeWord_fields (w : ReqWord) :
    (decodeWord w).reqType = wordType w ∧ (decodeWord w).reqLen = wordLen w ∧ (decodeWord w).wellFormed = true := by
  rcases Nat.lt_or_ge (wordType w).toNat 8 with h | h
  · have hrow := decodeWord_of_lt_eight h
    simp only [List.mem_cons, Prod.mk.injEq, List.not_mem_nil, or_false] at hrow
    rcases hrow with ⟨ht, e⟩ | ⟨ht, e⟩ | ⟨ht, e⟩ | ⟨ht, e⟩ | ⟨ht, e⟩ | ⟨ht, e⟩ | ⟨ht, e⟩ | ⟨ht, e⟩ <;>
      exact e ▸ ⟨ht.symm, rfl, rfl⟩
  · obtain ⟨h08, h10, h20, h40, h80⟩ := and_highBits_eq_iff (wordType w)
    rw [decodeWord_of_eight_le h]
    split_ifs <;> refine ⟨rfl, rfl, ?_⟩ <;> simp only [Instr.wellFormed, beq_iff_eq, h08, h10, h20, h40, h80] <;> omega

@[simp] theorem reqType_decodeWord (w : ReqWord) : (decodeWord w).reqType = wordType w := (decodeWord_fields w).1

@[simp] theorem reqLen_decodeWord (w : ReqWord) : (decodeWord w).reqLen = wordLen w := (decodeWord_fields w).2.1

theorem wellFormed_decodeWord (w : ReqWord) : (decodeWord w).wellFormed = true := (decodeWord_fields w).2.2

/-- Decoding the word of a well-formed request gives the request back (R80). -/
theorem decodeWord_encode {i : Instr} (h : i.wellFormed = true) : decodeWord (encode i) = i := by
  obtain ⟨h08, h10, h20, h40, h80⟩ := and_highBits_eq_iff i.reqType
  have hrange := decodeWord_of_eight_le (w := encode i)
  rw [wordType_encode, wordLen_encode] at hrange
  cases i
  case buildInvalid08 | buildInvalid10 | buildInvalid20 | buildInvalid40 | buildInvalid80 =>
    simp only [Instr.wellFormed, beq_iff_eq, Instr.reqType, Instr.reqLen] at *
    grind
  all_goals simp [decodeWord, Instr.reqType, Instr.reqLen]

end Sys2Proof
end

