-- ==== Sys2Proof/Proofs/PatternKind.lean ====
section
/-! PROOFS. The meaning of a well-formed request, chosen by `PATTERN_MAP` at its type. -/

set_option autoImplicit false

namespace Sys2Proof.Machine

/-- A code of 8 and more has no constant (R131). -/
theorem constOf_eq_none {t : Byte} (h : 8 ≤ t.toNat) : constOf t = none := by
  have ne (k : Byte) (hk : k.toNat < 8) : t ≠ k := byte_ne_of_toNat_lt (by omega)
  simp only [constOf, if_neg (ne 1#8 (by decide)), if_neg (ne 2#8 (by decide)), if_neg (ne 4#8 (by decide)),
    if_neg (ne 5#8 (by decide)), if_neg (ne 6#8 (by decide)), if_neg (ne 7#8 (by decide))]

/-- The meaning of a well-formed request follows `PATTERN_MAP` at its type (R76): a fill with the constant of the code, the
PRBS9 request, or a request without a generator. -/
theorem exec_of_patternKind {i : Instr} (h : i.wellFormed = true) :
    exec i = match patternKind i.reqType with
      | .prbs9 => execBuildPrbs9 i.reqLen
      | .fixed c => buildFill i.reqType c i.reqLen
      | .unsupported => buildInvalid i.reqLen := by
  obtain ⟨h08, h10, h20, h40, h80⟩ := and_highBits_eq_iff i.reqType
  cases i
  case buildInvalid08 t l | buildInvalid10 t l | buildInvalid20 t l | buildInvalid40 t l | buildInvalid80 t l =>
    simp only [Instr.wellFormed, beq_iff_eq, Instr.reqType] at *
    have hlow : 8 ≤ t.toNat := by grind
    have hzero : t ≠ 0#8 := byte_ne_of_toNat_lt (Nat.lt_of_lt_of_le (by decide) hlow)
    rw [patternKind, if_neg hzero, constOf_eq_none hlow]
    rfl
  all_goals rfl

/-- What `PATTERN_MAP` gives, and the constant table beside it (R76, R131). -/
theorem patternKind_cases (t : Byte) :
    (t = 0x00#8 ∧ patternKind t = .prbs9) ∨
    (t ≠ 0x00#8 ∧ ∃ c, constOf t = some c ∧ patternKind t = .fixed c) ∨
    (t ≠ 0x00#8 ∧ constOf t = none ∧ patternKind t = .unsupported) := by
  by_cases ht : t = 0x00#8
  · exact .inl ⟨ht, if_pos ht⟩
  · rw [patternKind, if_neg ht]
    cases hc : constOf t with
    | none => exact .inr (.inr ⟨ht, rfl, rfl⟩)
    | some c => exact .inr (.inl ⟨ht, c, rfl, rfl⟩)

end Sys2Proof.Machine
end

