-- ==== Sys2Proof/Proofs/PrbsGeneration.lean ====
section
/-! PROOFS. Both steppings of the PRBS9 generator write the closed form of R112. -/

set_option autoImplicit false

namespace Sys2Proof.Machine

/-! ## The LFSR bit by bit (R101 to R107) -/

theorem getLsbD_lfsrStep_of_lt {s : LfsrWord} {j : Nat} (h : j < 8) : (lfsrStep s).getLsbD j = s.getLsbD (j + 1) := by
  interval_cases j <;> simp [lfsrStep, feedback]

theorem getLsbD_lfsrStep_eight (s : LfsrWord) : (lfsrStep s).getLsbD 8 = (s.getLsbD 0 ^^ s.getLsbD 4) := by
  simp [lfsrStep, feedback]

theorem lfsrByteStep_eq_iterate (s : LfsrWord) : lfsrByteStep s = lfsrStep^[8] s := by
  refine BitVec.eq_of_getLsbD_eq fun j hj => ?_
  change BitVec.getLsbD (_ ++ _ : BitVec (_ + 1)) _ = _
  simp only [BitVec.getLsbD_append]
  interval_cases j <;>
    simp [getLsbD_lfsrStep_of_lt, getLsbD_lfsrStep_eight, Bool.xor_comm, -BitVec.getLsbD_eq_getElem]

/-- Eight bit steps for each byte step. -/
theorem iterate_lfsrByteStep (k : Nat) (s : LfsrWord) : lfsrByteStep^[k] s = lfsrStep^[8 * k] s := by
  rw [Function.iterate_mul, funext lfsrByteStep_eq_iterate]

theorem getLsbD_byteOut {s : LfsrWord} {j : Nat} (h : j < 8) : (byteOut s).getLsbD (7 - j) = s.getLsbD j := by
  change BitVec.getLsbD (_ ++ _ : BitVec (_ + 1)) _ = _
  simp only [BitVec.getLsbD_append]
  interval_cases j <;> simp

theorem getLsbD_bitOut (s : LfsrWord) : (bitOut s).getLsbD 0 = s.getLsbD 0 := by
  simp [bitOut]

/-- A step shifts: bit `m` of a state is bit 0 after `m` steps. -/
theorem getLsbD_zero_iterate_lfsrStep {s : LfsrWord} {m : Nat} (h : m ≤ 8) :
    (lfsrStep^[m] s).getLsbD 0 = s.getLsbD m := by
  induction m generalizing s with
  | zero => rfl
  | succ m ih => rw [Function.iterate_succ_apply, ih (by omega), getLsbD_lfsrStep_of_lt (by omega)]

/-- The state after `n` steps shows nine bits of the sequence (R105). -/
theorem getLsbD_iterate_lfsrStep_seed {n j : Nat} (h : j ≤ 8) : (lfsrStep^[n] seed).getLsbD j = prbsBit (n + j) := by
  rw [← getLsbD_zero_iterate_lfsrStep h, ← Function.iterate_add_apply, Nat.add_comm, prbsBit]

/-! ## The payload bytes in closed form (R112, R113) -/

/-- Bytes are equal when their bits are, in the order of sending (R10). -/
theorem byte_eq_of_reversed_bits {b c : Byte} (h : ∀ j < 8, b.getLsbD (7 - j) = c.getLsbD (7 - j)) : b = c := by
  refine BitVec.eq_of_getLsbD_eq fun i hi => ?_
  have hbit := h (7 - i) (by omega)
  rwa [show 7 - (7 - i) = i by omega] at hbit

theorem getLsbD_and_FE {b : Byte} {j : Nat} (h : j < 8) :
    (b &&& 0xFE#8).getLsbD (7 - j) = (decide (j ≠ 7) && b.getLsbD (7 - j)) := by
  interval_cases j <;> simp

/-- Payload bits are sequence bits, but for the last position (R112, R113). -/
theorem getLsbD_prbsByte {l k j : Nat} (h : j < 8) :
    (prbsByte l k).getLsbD (7 - j) = (decide (¬ (k + 1 = l ∧ j = 7)) && prbsBit (8 * k + j)) := by
  have hfull : (byteOut (lfsrByteStep^[k] seed)).getLsbD (7 - j) = prbsBit (8 * k + j) := by
    rw [getLsbD_byteOut h, iterate_lfsrByteStep, getLsbD_iterate_lfsrStep_seed (by omega)]
  simp only [prbsByte]
  split
  next hl => rw [getLsbD_and_FE h, hfull]; simp [hl]
  next hl => rw [hfull]; simp [hl]

/-! ## Bit-serial generation (R111) -/

theorem serialLoop_eq_iterate (n : Nat) (g : GenRun) : serialLoop n g = serialStep^[n] g := by
  induction n generalizing g with
  | zero => rfl
  | succ n ih => exact ih (serialStep g)

/-- What holds after `n` iterations of R111's loop over `l` zeroed bytes: the first `n` bit positions hold the sequence. -/
structure SerialInv (l n : Nat) (g : GenRun) : Prop where
  lfsr : g.lfsr = lfsrStep^[n] seed
  bitIdx : g.bitIdx.toNat = n
  length : g.out.length = l
  bits : ∀ k < l, ∀ j < 8, (g.out.getD k 0#8).getLsbD (7 - j) = (decide (8 * k + j < n) && prbsBit (8 * k + j))

theorem serialInv_start (l : Nat) :
    SerialInv l 0 { lfsr := seed, bitIdx := 0#10, byteAcc := 0#8, out := List.replicate l 0#8 } where
  lfsr := rfl
  bitIdx := rfl
  length := List.length_replicate
  bits k hk j _ := by simp [hk]

/-- The bit a loop iteration sets. -/
theorem getLsbD_bitOut_shift (s : LfsrWord) {m j : Nat} (hm : m < 8) (hj : j < 8) :
    ((bitOut s).setWidth 8 <<< (7 - m)).getLsbD (7 - j) = (decide (j = m) && s.getLsbD 0) := by
  rw [← getLsbD_bitOut]
  interval_cases m <;> interval_cases j <;> simp

theorem SerialInv.step {l n : Nat} {g : GenRun} (h : SerialInv l n g) (hbound : n + 1 < 1024) :
    SerialInv l (n + 1) (serialStep g) := by
  obtain ⟨hlfsr, hidx, hlen, hbits⟩ := h
  refine ⟨?_, ?_, ?_, fun k hk j hj => ?_⟩
  · rw [Function.iterate_succ_apply', ← hlfsr]
    rfl
  · simp only [serialStep, BitVec.toNat_add, hidx]
    exact Nat.mod_eq_of_lt hbound
  · rw [serialStep_out_length, hlen]
  · have hseq : g.lfsr.getLsbD 0 = prbsBit n := by rw [hlfsr, prbsBit]
    have hold := hbits k hk j hj
    rw [List.getD_eq_getElem?_getD] at hold
    simp only [serialStep, hidx, List.getD_eq_getElem?_getD, List.getElem?_set, hlen]
    by_cases hkn : n / 8 = k
    · subst hkn
      rw [if_pos rfl, if_pos hk, Option.getD_some, BitVec.getLsbD_or, hold,
        getLsbD_bitOut_shift _ (Nat.mod_lt n (by decide)) hj, hseq]
      by_cases hjn : j = n % 8
      · have hpos : 8 * (n / 8) + j = n := by omega
        rw [hpos]
        simp [hjn]
      · have hlt : 8 * (n / 8) + j < n ↔ 8 * (n / 8) + j < n + 1 := by omega
        simp [hjn, hlt]
    · have hlt : 8 * k + j < n ↔ 8 * k + j < n + 1 := by omega
      rw [if_neg hkn, hold, decide_eq_decide.2 hlt]

theorem serialInv_serialLoop (l : Nat) {n : Nat} (hbound : n < 1024) :
    SerialInv l n (serialLoop n { lfsr := seed, bitIdx := 0#10, byteAcc := 0#8, out := List.replicate l 0#8 }) := by
  rw [serialLoop_eq_iterate]
  induction n with
  | zero => exact serialInv_start l
  | succ n ih =>
    rw [Function.iterate_succ_apply']
    exact (ih (by omega)).step hbound

/-- R111's loop writes the closed form of R112. -/
theorem serialGen_out {l : Nat} (h : l ≤ 64) : (serialGen l).out = (List.range l).map (prbsByte l) := by
  have hinv : SerialInv l (l * 8 - 1) (serialGen l) := serialInv_serialLoop l (by omega)
  refine List.ext_getElem (by simp) fun k hk hk' => byte_eq_of_reversed_bits fun j hj => ?_
  have hkl : k < l := by simpa using hk
  have hbit := hinv.bits k hkl j hj
  rw [List.getD_eq_getElem _ _ hk] at hbit
  rw [hbit, List.getElem_map, List.getElem_range, getLsbD_prbsByte hj]
  congr 2
  simp only [eq_iff_iff]
  omega

/-! ## Byte-granular generation (R106 to R108) -/

/-- The bytes that `n` byte steps from a state put out; the last one has its last bit cleared (R112). -/
theorem byteLoop_out (n : Nat) (g : GenRun) :
    (byteLoop n g).out = g.out ++ (List.range n).map fun k =>
      if k + 1 = n then byteOut (lfsrByteStep^[k] g.lfsr) &&& 0xFE#8 else byteOut (lfsrByteStep^[k] g.lfsr) := by
  induction n generalizing g with
  | zero => simp [byteLoop]
  | succ n ih =>
    simp only [byteLoop, ih, List.range_succ_eq_map, List.map_cons, List.map_map, List.append_assoc, List.singleton_append]
    congr 2
    · simp
    · simp [Function.comp_def]

theorem byteGen_out (l : Nat) : (byteGen l).out = (List.range l).map (prbsByte l) :=
  byteLoop_out l _

end Sys2Proof.Machine
end

