-- ==== Sys2Proof/Proofs/RequestBuild.lean ====
section
/-! PROOFS. Every well-formed request computes `Build` of R163. -/

set_option autoImplicit false

namespace Sys2Proof.Machine

/-! ## `Build` by cases (R163) -/

/-- The length check in exact integers, as `Build` writes it (R109, R114). -/
theorem prbsRejects_eq_true_iff_bits {p : Params} {l : Byte} :
    prbsRejects p l = true ↔ (l.toNat : Int) * 8 - 1 > 511 ∨ (l = 0#8 ∧ p.prbsLen0 = .reject) := by
  rw [prbsRejects_eq_true]
  exact or_congr_left (by omega)

section
variable {t l : Byte} {p : Params} (b : Memory)

theorem build_overflow (h : p.cap < l.toNat + 2) : build t l p b = ⟨b, .bufferOverflow, 0⟩ :=
  if_pos h

theorem build_prbs9_rejected (h : l.toNat + 2 ≤ p.cap) (hr : prbsRejects p l = true) :
    build 0x00#8 l p b =
      ⟨if p.prezeroOnFail then b.writeFrom 2 (List.replicate l.toNat 0x00#8) else b, .sequenceLengthExceeded, 0⟩ := by
  rw [build, if_neg (by omega), if_pos rfl, if_pos (prbsRejects_eq_true_iff_bits.1 hr)]

theorem build_prbs9_accepted (h : l.toNat + 2 ≤ p.cap) (hr : prbsRejects p l = false) :
    build 0x00#8 l p b =
      ⟨((b.writeFrom 2 ((List.range l.toNat).map (prbsByte l.toNat))).write 0 0x00#8).write 1 l, .ok, writtenOk l⟩ := by
  rw [← Bool.not_eq_true, prbsRejects_eq_true_iff_bits] at hr
  rw [build, if_neg (by omega), if_pos rfl, if_neg hr]
  rfl

theorem build_fixed (h : l.toNat + 2 ≤ p.cap) (ht : t ≠ 0x00#8) {c : Byte} (hc : constOf t = some c) :
    build t l p b =
      ⟨((b.writeFrom 2 (List.replicate l.toNat c)).write 0 t).write 1 l, .ok, writtenOk l⟩ := by
  rw [build, if_neg (by omega), if_neg ht, hc]
  rfl

theorem build_unsupported (h : l.toNat + 2 ≤ p.cap) (ht : t ≠ 0x00#8) (hc : constOf t = none) :
    build t l p b = ⟨b, .invalidPatternType, 0⟩ := by
  rw [build, if_neg (by omega), if_neg ht, hc]

end

/-! ## Every meaning is `Build` -/

/-- A generation that passes its checks is at most 64 bytes long (R109). -/
theorem toNat_le_of_prbsRejects_eq_false {p : Params} {l : Byte} (h : prbsRejects p l = false) : l.toNat ≤ 64 := by
  rw [← Bool.not_eq_true, prbsRejects_eq_true] at h
  omega

/-- A run that ends with a given result: its response, on a state `u` with the result's buffer whose contended bytes are still to
be settled (R59). -/
def EndsWith (s : State) (l : Byte) (b : BuildResult) (r : Result) : Prop :=
  ∃ u : State, u.txbuf = b.buf ∧ u.contended = s.contended ∧ r = .next (respond b.code b.written (settleWindow l u))

theorem endsWith_buildFill {t c l : Byte} (s : State) (ht : t ≠ 0x00#8) (hc : constOf t = some c) :
    EndsWith s l (build t l s.params s.txbuf) (buildFill t c l s) := by
  rcases buildFill_cases t c l s with ⟨h, e⟩ | ⟨h, e⟩
  · rw [build_overflow _ h]
    exact ⟨s, rfl, rfl, e⟩
  · rw [build_fixed _ h ht hc]
    exact ⟨_, by rfl, by rfl, e⟩

theorem endsWith_buildInvalid {t l : Byte} (s : State) (ht : t ≠ 0x00#8) (hc : constOf t = none) :
    EndsWith s l (build t l s.params s.txbuf) (buildInvalid l s) := by
  rcases buildInvalid_cases l s with ⟨h, e⟩ | ⟨h, e⟩
  · rw [build_overflow _ h]
    exact ⟨s, rfl, rfl, e⟩
  · rw [build_unsupported _ h ht hc]
    exact ⟨s, rfl, rfl, e⟩

theorem endsWith_execBuildPrbs9 (l : Byte) (s : State) :
    EndsWith s l (build 0x00#8 l s.params s.txbuf) (execBuildPrbs9 l s) := by
  rcases execBuildPrbs9_cases l s with ⟨h, e⟩ | ⟨h, hr, e⟩ | ⟨h, hr, x, j, b, n, bs, -, hserial, hbyte, e⟩
  · rw [build_overflow _ h]
    exact ⟨s, rfl, rfl, e⟩
  · rw [build_prbs9_rejected _ h hr]
    exact ⟨_, by rfl, by rfl, e⟩
  · have hbs : bs = (List.range l.toNat).map (prbsByte l.toNat) := by
      cases hs : s.params.stepping
      · rw [(hserial hs).1, serialGen_out (toNat_le_of_prbsRejects_eq_false hr)]
      · rw [(hbyte hs).1, byteGen_out]
    rw [build_prbs9_accepted _ h hr, ← hbs]
    exact ⟨_, by rfl, by rfl, e⟩

/-- Every well-formed request computes `Build` (R163). -/
theorem endsWith_exec {i : Instr} (h : i.wellFormed = true) (s : State) :
    EndsWith s i.reqLen (build i.reqType i.reqLen s.params s.txbuf) (exec i s) := by
  rw [exec_of_patternKind h]
  rcases patternKind_cases i.reqType with ⟨ht, e⟩ | ⟨ht, c, hc, e⟩ | ⟨ht, hc, e⟩ <;> rw [e]
  · rw [ht]
    exact endsWith_execBuildPrbs9 i.reqLen s
  · exact endsWith_buildFill s ht hc
  · exact endsWith_buildInvalid s ht hc

/-- What a run that ends with a result shows: the response always, and the buffer where the host kept out of the window. -/
theorem EndsWith.presents {s : State} {l : Byte} {b : BuildResult} {r : Result} (h : EndsWith s l b r) :
    ∃ t, r = .next t ∧ Presents t b.code b.written ∧ (s.contended = [] → t.txbuf = b.buf) := by
  obtain ⟨u, hbuf, hcont, e⟩ := h
  refine ⟨_, e, presents_respond _ _ _, fun hquiet => ?_⟩
  rw [respond_txbuf, settleWindow_quiet l (hcont.trans hquiet), hbuf]

end Sys2Proof.Machine
end

