-- ==== Sys2Proof/Proofs/RequestPorts.lean ====
section
/-! PROOFS. The request in flight and the request ports do not meet. -/

set_option autoImplicit false

namespace Sys2Proof.Machine

/-- An operation of the block that the host's driving of the request ports neither affects nor is affected by. -/
def CommutesWithDrive (f : State → Result) : Prop :=
  ∀ (v : Bool) (x y : Byte) (s : State), andThen (hostDrive v x y s) f = andThen (f s) (hostDrive v x y)

theorem CommutesWithDrive.andThen {f g : State → Result} (hf : CommutesWithDrive f) (hg : CommutesWithDrive g) :
    CommutesWithDrive fun s => andThen (f s) g := by
  intro v x y s
  have hfs := hf v x y s
  simp only [hostDrive, andThen_next] at hfs ⊢
  rw [hfs]
  cases f s with
  | next t => exact hg v x y t
  | fault e => rfl
  | refused e => rfl

/-- A branch on the parameters commutes with a drive when both sides do: no drive changes a parameter. -/
theorem CommutesWithDrive.ite {p : Params → Bool} {f g : State → Result} (hf : CommutesWithDrive f)
    (hg : CommutesWithDrive g) : CommutesWithDrive fun s => if p s.params then f s else g s := by
  intro v x y s
  simp only [hostDrive, andThen_next]
  split
  · exact hf v x y s
  · exact hg v x y s

theorem commutesWithDrive_memWrite (a : Nat) (b : Byte) : CommutesWithDrive (memWrite a b) := by
  intro v x y s
  simp only [hostDrive, andThen_next, memWrite]
  split <;> rfl

theorem commutesWithDrive_memWriteFrom (a : Nat) (bs : List Byte) : CommutesWithDrive (memWriteFrom a bs) := by
  induction bs generalizing a with
  | nil => exact fun _ _ _ _ => rfl
  | cons b bs ih => exact (commutesWithDrive_memWrite a b).andThen (ih (a + 1))

theorem commutesWithDrive_complete (c : ResultCode) (l : Byte) : CommutesWithDrive (complete c l) :=
  fun _ _ _ _ => rfl

theorem commutesWithDrive_succeed (t l : Byte) : CommutesWithDrive (succeed t l) :=
  ((commutesWithDrive_memWrite 0 t).andThen (commutesWithDrive_memWrite 1 l)).andThen (commutesWithDrive_complete .ok l)

theorem commutesWithDrive_buildFill (t c l : Byte) : CommutesWithDrive (buildFill t c l) :=
  CommutesWithDrive.ite (p := (overflows · l)) (commutesWithDrive_complete .bufferOverflow l)
    ((commutesWithDrive_memWriteFrom _ _).andThen (commutesWithDrive_succeed t l))

theorem commutesWithDrive_buildInvalid (l : Byte) : CommutesWithDrive (buildInvalid l) :=
  CommutesWithDrive.ite (p := (overflows · l)) (commutesWithDrive_complete .bufferOverflow l)
    (commutesWithDrive_complete .invalidPatternType l)

theorem commutesWithDrive_prbs9Reject (l : Byte) : CommutesWithDrive (prbs9Reject l) :=
  CommutesWithDrive.ite (p := Params.prezeroOnFail) (commutesWithDrive_memWriteFrom _ _) fun _ _ _ _ => rfl

theorem commutesWithDrive_prbs9Gen (l : Byte) : CommutesWithDrive (prbs9Gen l) := by
  intro v x y s
  simp only [hostDrive, andThen_next, prbs9Gen]
  cases s.params.stepping
  · exact commutesWithDrive_memWriteFrom _ _ v x y (s.setGen _ _ _)
  · exact commutesWithDrive_memWriteFrom _ _ v x y ((s.setGen _ _ _).countDraws 1)

theorem commutesWithDrive_execBuildPrbs9 (l : Byte) : CommutesWithDrive (execBuildPrbs9 l) :=
  CommutesWithDrive.ite (p := (overflows · l)) (commutesWithDrive_complete .bufferOverflow l)
    (CommutesWithDrive.ite (p := (prbsRejects · l))
      ((commutesWithDrive_prbs9Reject l).andThen (commutesWithDrive_complete .sequenceLengthExceeded l))
      ((commutesWithDrive_prbs9Gen l).andThen (commutesWithDrive_succeed 0x00#8 l)))

/-- No well-formed request reads or writes the request ports. -/
theorem commutesWithDrive_exec {i : Instr} (h : i.wellFormed = true) : CommutesWithDrive (exec i) := by
  rw [exec_of_patternKind h]
  cases patternKind i.reqType with
  | prbs9 => exact commutesWithDrive_execBuildPrbs9 i.reqLen
  | fixed c => exact commutesWithDrive_buildFill i.reqType c i.reqLen
  | unsupported => exact commutesWithDrive_buildInvalid i.reqLen

end Sys2Proof.Machine
end

