-- ==== Sys2Proof/Proofs/StepOutcome.lean ====
section
/-! PROOFS. What a request keeps and presents, and what a step that answers a next state did. -/

set_option autoImplicit false

namespace Sys2Proof.Machine

/-! ## What a request keeps and presents -/

/-- No request changes the latched request, the ports, the parameters, the schedule or what the host has observed. -/
theorem exec_keepsRest {i : Instr} {s t : State} (h : exec i s = .next t) : KeepsRest s t := by
  rcases exec_cases i s with ⟨-, e⟩ | ⟨-, c, m, -, -, -, e⟩ | ⟨-, x, j, b, n, bs, -, e⟩ <;>
  · rw [e] at h
    cases h
    exact ⟨rfl, rfl, rfl, rfl, rfl, rfl, rfl, rfl, rfl, rfl, rfl⟩

/-- Every request completes (R32): some response is presented. -/
theorem exec_presents {i : Instr} {s t : State} (h : exec i s = .next t) : ∃ c w, Presents t c w := by
  rcases exec_cases i s with ⟨-, e⟩ | ⟨-, c, m, -, -, -, e⟩ | ⟨-, x, j, b, n, bs, -, e⟩ <;>
  · rw [e] at h
    cases h
    exact ⟨_, _, presents_respond _ _ _⟩

/-! ## What a move can do -/

/-- A step that answers a next state is a move of the block or of the host that does. -/
theorem step_next_cases {s t : State} (h : step s = .next t) :
    (∃ rest, BlockNext s rest ∧ blockMove (s.setSchedule rest) = .next t) ∨
    ∃ a rest, s.schedule = .host a :: rest ∧ hostMove a (s.setSchedule rest) = .next t := by
  rcases step_cases s with ⟨rest, hn, e⟩ | ⟨a, rest, hs, e⟩
  · exact .inl ⟨rest, hn, e.symm.trans h⟩
  · exact .inr ⟨a, rest, hs, e.symm.trans h⟩

/-- The block's step in IDLE (R31). -/
theorem step_idle {s : State} {rest : List Turn} (h : BlockNext s rest) (hr : s.rst = false) (hp : s.phase = .idle) :
    step s = .next (idleMove (s.setSchedule rest)) :=
  (step_of_blockNext h).trans (blockMove_idle hr hp)

/-- The block's step in BUSY (R32). -/
theorem step_busy {s : State} {rest : List Turn} (h : BlockNext s rest) (hr : s.rst = false) (hp : s.phase = .busy) :
    step s = exec (decodeWord (mkWord s.reqT s.reqL)) (s.setSchedule rest) :=
  (step_of_blockNext h).trans (blockMove_busy hr hp)

/-- The same with nothing scheduled: no turn is used up. -/
theorem step_busy_of_nil {s : State} (h : s.schedule = []) (hr : s.rst = false) (hp : s.phase = .busy) :
    step s = exec (decodeWord (mkWord s.reqT s.reqL)) s := by
  rw [step, h]
  exact blockMove_busy hr hp

/-- A host action is the rise of `rst`, or leaves the response and the parameters alone. -/
theorem hostMove_next_cases {a : HostAction} {s t : State} (h : hostMove a s = .next t) :
    (s.rst = false ∧ t = enterReset s) ∨ (KeepsResponse s t ∧ t.params = s.params) := by
  cases a with
  | drive valid x y => cases h; exact .inr ⟨⟨rfl, rfl, rfl⟩, rfl⟩
  | setRst level =>
    rcases hostMove_setRst_cases level s with ⟨-, -, e⟩ | ⟨-, hr, e⟩ | ⟨-, e⟩ <;> cases e.symm.trans h
    · exact .inr ⟨⟨rfl, rfl, rfl⟩, rfl⟩
    · exact .inl ⟨hr, rfl⟩
    · exact .inr ⟨⟨rfl, rfl, rfl⟩, rfl⟩
  | readBuf a =>
    rcases hostMove_readBuf_cases a s with ⟨-, e⟩ | ⟨-, -, e⟩ | ⟨-, -, e⟩ <;> cases e.symm.trans h <;>
      exact .inr ⟨⟨rfl, rfl, rfl⟩, rfl⟩
  | writeBuf a v =>
    rcases hostMove_writeBuf_cases a v s with ⟨-, e⟩ | ⟨-, -, e⟩ | ⟨-, -, e⟩ <;> cases e.symm.trans h <;>
      exact .inr ⟨⟨rfl, rfl, rfl⟩, rfl⟩
  | readResp =>
    obtain ⟨-, rfl⟩ := hostMove_readResp_next h
    exact .inr ⟨⟨rfl, rfl, rfl⟩, rfl⟩
  | forward =>
    obtain ⟨-, rfl⟩ := hostMove_forward_next h
    exact .inr ⟨⟨rfl, rfl, rfl⟩, rfl⟩

/-- The block's move holds reset, moves in IDLE, or completes a request (R30 to R32, R200). -/
theorem blockMove_next_cases {s t : State} (h : blockMove s = .next t) :
    (s.rst = true ∧ t = holdReset s) ∨
    (s.rst = false ∧ s.phase = .idle ∧ t = idleMove s) ∨
    (s.rst = false ∧ s.phase = .busy ∧ exec (decodeWord (requestWord s)) s = .next t) := by
  cases hr : s.rst
  · cases hp : s.phase
    · rw [blockMove_idle hr hp] at h
      cases h
      exact .inr (.inl ⟨rfl, rfl, rfl⟩)
    · rw [blockMove_busy hr hp] at h
      exact .inr (.inr ⟨rfl, rfl, h⟩)
  · rw [blockMove_reset hr] at h
    cases h
    exact .inl ⟨rfl, rfl⟩

/-- In IDLE the block waits, or accepts the presented request (R31). -/
theorem idleMove_cases (s : State) :
    (s.reqValid = false ∧ idleMove s = s) ∨ (s.reqValid = true ∧ idleMove s = acceptRequest s.reqType s.reqLen s) := by
  cases h : s.reqValid
  · exact .inl ⟨rfl, idleMove_wait h⟩
  · exact .inr ⟨rfl, idleMove_accept h⟩

@[simp] theorem idleMove_status (s : State) : (idleMove s).status = s.status := by
  rcases idleMove_cases s with ⟨-, e⟩ | ⟨-, e⟩ <;> rw [e]
  rfl

@[simp] theorem idleMove_params (s : State) : (idleMove s).params = s.params := by
  rcases idleMove_cases s with ⟨-, e⟩ | ⟨-, e⟩ <;> rw [e]
  rfl

@[simp] theorem holdReset_params (s : State) : (holdReset s).params = s.params := by
  unfold holdReset
  split <;> rfl

theorem blockMove_params {s t : State} (h : blockMove s = .next t) : t.params = s.params := by
  rcases blockMove_next_cases h with ⟨-, rfl⟩ | ⟨-, -, rfl⟩ | ⟨-, -, e⟩
  · exact holdReset_params s
  · exact idleMove_params s
  · exact (exec_keepsRest e).params

theorem hostMove_params {a : HostAction} {s t : State} (h : hostMove a s = .next t) : t.params = s.params := by
  rcases hostMove_next_cases h with ⟨-, rfl⟩ | ⟨-, hp⟩
  · rfl
  · exact hp

end Sys2Proof.Machine
end

