-- ==== Sys2Proof/Proofs/Sequencer.lean ====
section
/-! PROOFS. The statements about the sequencer, its step and the ports. -/

set_option autoImplicit false

namespace Sys2Proof.Machine

/-- Settles O38: neither the block's move nor a host action changes the parameters. -/
theorem parametersNeverChange : Obligations.ParametersNeverChange := by
  intro s t h
  rcases step_next_cases h with ⟨rest, -, hb⟩ | ⟨a, rest, -, hh⟩
  · simpa using blockMove_params hb
  · simpa using hostMove_params hh

/-- Settles O36: an idle block waits or accepts, and of the host's actions only the rise of `rst` touches the response. -/
theorem responsePersists : Obligations.ResponsePersists := by
  intro s t _ hidle hrst h
  rcases step_next_cases h with ⟨rest, hn, -⟩ | ⟨a, rest, -, hh⟩
  · rw [step_idle hn hrst hidle] at h
    cases h
    rcases idleMove_cases (s.setSchedule rest) with ⟨-, e⟩ | ⟨hv, e⟩ <;> rw [e]
    · exact .inl ⟨rfl, rfl, rfl⟩
    · exact .inr (.inl ⟨rfl, rfl, hv⟩)
  · rcases hostMove_next_cases hh with ⟨-, rfl⟩ | ⟨⟨hv, hs, hw⟩, -⟩
    · exact .inr (.inr ⟨rfl, rfl⟩)
    · exact .inl ⟨hv, hs, hw⟩

/-- Settles O37: of the block's moves only a completion writes `STATUS`, of the host's only the rise of `rst`. -/
theorem statusWrittenOnlyAtCompletion : Obligations.StatusWrittenOnlyAtCompletion := by
  intro s t hinv h hne
  rcases step_next_cases h with ⟨rest, -, hb⟩ | ⟨a, rest, -, hh⟩
  · rcases blockMove_next_cases hb with ⟨hr, rfl⟩ | ⟨-, -, rfl⟩ | ⟨-, hp, hx⟩
    · have quiet : holdReset (s.setSchedule rest) = s.setSchedule rest := holdReset_quiet (hinv.rstQuiet hr)
      exact absurd (by rw [quiet]; rfl) hne
    · exact absurd (idleMove_status _) hne
    · obtain ⟨c, w, hpres⟩ := exec_presents hx
      exact .inl ⟨hp, hpres.phase, hpres.respValid⟩
  · rcases hostMove_next_cases hh with ⟨hr, rfl⟩ | ⟨hk, -⟩
    · exact .inr ⟨hr, rfl⟩
    · exact absurd hk.status hne

/-- Settles O31: the block's step in BUSY, and the decoder read back for the request that was latched. -/
theorem stepRunsDecodedRequest : Obligations.StepRunsDecodedRequest := by
  refine ⟨fun s hr hp hs => step_busy_of_nil hs hr hp, fun s rest hr hp hs => step_busy (.inr hs) hr hp, ?_⟩
  intro i s hwf hr hp hs ht hl
  rw [step_busy_of_nil hs hr hp, ht, hl]
  exact congrArg (exec · s) (decodeWord_encode hwf)

/-- Settles O33: the block's move in IDLE, with the turn used up. -/
theorem acceptanceLatchesRequest : Obligations.AcceptanceLatchesRequest := by
  intro s rest hnext hrst hidle
  rw [step_idle hnext hrst hidle]
  constructor
  · intro hv
    have haccept : idleMove (s.setSchedule rest) = acceptRequest s.reqType s.reqLen (s.setSchedule rest) :=
      idleMove_accept hv
    rw [haccept]
    rfl
  · intro hv
    have hwait : idleMove (s.setSchedule rest) = s.setSchedule rest := idleMove_wait hv
    rw [hwait]
    rfl

/-- Settles O34: the request in flight commutes with a drive of the request ports, and keeps the latched type and length. -/
theorem busyIgnoresRequestPorts : Obligations.BusyIgnoresRequestPorts := by
  intro s t v x y hp hr hs h
  rw [step_busy_of_nil hs hr hp] at h
  have hdrive := commutesWithDrive_exec (wellFormed_decodeWord (mkWord s.reqT s.reqL)) v x y s
  simp only [hostDrive, andThen_next, h] at hdrive
  have hkeeps := exec_keepsRest h
  exact ⟨(step_busy_of_nil (s := { s with reqValid := v, reqType := x, reqLen := y }) hs hr hp).trans hdrive,
    hkeeps.reqT, hkeeps.reqL⟩

/-- Settles O35: the latched word decodes to a well-formed request of its type and length, which ends with `Build`'s result. -/
theorem busyMoveCompletesWithBuild : Obligations.BusyMoveCompletesWithBuild := by
  intro s hs hr hp
  have hends := endsWith_exec (wellFormed_decodeWord (mkWord s.reqT s.reqL)) s
  rw [reqType_decodeWord, reqLen_decodeWord, wordType_mkWord, wordLen_mkWord] at hends
  rw [step_busy_of_nil hs hr hp]
  exact hends.presents

/-- Settles O41: each clause of the invariant is an equation between fields of the reset state. -/
theorem resetStateMeetsInvariant : Obligations.ResetStateMeetsInvariant :=
  ⟨{ bufCanonical := List.Pairwise.nil
     bufInside := by simp [State.reset]
     busyQuiet := fun _ => rfl
     rstQuiet := by simp [State.reset]
     contendedInside := by simp [State.reset]
     responseRight := by simp [State.reset] }, rfl, rfl, rfl, rfl⟩

/-- Settles O47: the host's read of the response tests `RESP_VALID` first. -/
theorem responseReadOnlyWhileValid : Obligations.ResponseReadOnlyWhileValid := by
  intro s
  constructor <;> intro hv <;> simp [hostMove, hostReadResp, hv]

/-- Settles O53: `step` reads the turn off the schedule. -/
theorem stepRunsHostTurn : Obligations.StepRunsHostTurn := by
  intro s a rest h
  rw [step, h]

/-- Settles O54: a drive replaces the three ports and leaves every other field as it is. -/
theorem driveSetsRequestPorts : Obligations.DriveSetsRequestPorts :=
  fun _ _ _ _ => rfl

end Sys2Proof.Machine
end

