-- ==== Sys2Proof/Proofs/BufferOverlay.lean ====
section
/-! PROOFS. A buffer operation as an overlay of fixed bytes below a bound, and `Build` of R163 as one. -/

set_option autoImplicit false

namespace Sys2Proof.Machine

/-! ## Overlays of the buffer -/

/-- The listed offsets lie below a bound exactly when nothing reads at or above it. -/
theorem Memory.inside_iff_read_eq_none {m : Memory} {n : Nat} :
    (∀ c ∈ m, c.1 < n) ↔ ∀ a, n ≤ a → m.read a = none := by
  induction m with
  | nil => simp
  | cons c m ih =>
    obtain ⟨k, u⟩ := c
    rw [List.forall_mem_cons, ih]
    constructor
    · rintro ⟨hk, htail⟩ a ha
      rw [Memory.read_cons, if_neg (by simp only at hk; omega)]
      exact htail a ha
    · intro h
      have hk : k < n := by
        by_contra hge
        simpa [Memory.read_cons] using h k (by omega)
      refine ⟨hk, fun a ha => ?_⟩
      simpa [Memory.read_cons, show k ≠ a by omega] using h a ha

/-- An operation that lays fixed bytes over the buffer, at offsets below `n`, and keeps the canonical form. Which bytes they are
shows in what it makes of the empty buffer. -/
structure Overlay (n : Nat) (g : Memory → Memory) : Prop where
  reads : ∀ m x, (g m).read x = ((g []).read x).or (m.read x)
  outside : ∀ x, n ≤ x → (g []).read x = none
  wf : ∀ m, Memory.wf m → Memory.wf (g m)

theorem overlay_refl (n : Nat) : Overlay n fun m => m :=
  ⟨by simp, by simp, fun _ h => h⟩

theorem Overlay.comp {n : Nat} {g h : Memory → Memory} (hg : Overlay n g) (hh : Overlay n h) : Overlay n fun m => g (h m) where
  reads m x := by rw [hg.reads (h m), hg.reads (h []), hh.reads m, Option.or_assoc]
  outside x hx := by rw [hg.reads, hg.outside x hx, hh.outside x hx]; rfl
  wf m hm := hg.wf _ (hh.wf m hm)

theorem overlay_write {n a : Nat} (h : a < n) (v : Byte) : Overlay n fun m => m.write a v where
  reads m x := by
    rw [Memory.read_write, Memory.read_write]
    split <;> rfl
  outside x hx := by rw [Memory.read_write_other _ _ (by omega)]; rfl
  wf _ hm := Memory.wf_write hm a v

theorem overlay_writeFrom {n a : Nat} {bs : List Byte} (h : a + bs.length ≤ n) : Overlay n fun m => m.writeFrom a bs := by
  induction bs generalizing a with
  | nil => exact overlay_refl n
  | cons b bs ih =>
    rw [List.length_cons] at h
    exact (ih (a := a + 1) (by omega)).comp (overlay_write (by omega) b)

theorem overlay_drawAt {n k : Nat} {as : List Nat} (h : ∀ a ∈ as, a < n) : Overlay n fun m => m.drawAt k as := by
  induction as generalizing k with
  | nil => exact overlay_refl n
  | cons a as ih =>
    obtain ⟨ha, has⟩ := List.forall_mem_cons.1 h
    exact (ih (k := k + 1) has).comp (overlay_write ha _)

section
variable {n : Nat} {g : Memory → Memory} (h : Overlay n g)
include h

theorem Overlay.read_outside (m : Memory) {x : Nat} (hx : n ≤ x) : (g m).read x = m.read x := by
  rw [h.reads, h.outside x hx]
  rfl

theorem Overlay.inside {m : Memory} {cap : Nat} (hn : n ≤ cap) (hm : ∀ c ∈ m, c.1 < cap) : ∀ c ∈ g m, c.1 < cap := by
  rw [Memory.inside_iff_read_eq_none] at hm ⊢
  intro x hx
  rw [h.read_outside m (hn.trans hx), hm x hx]

/-- An overlay at an offset depends on the buffer at that offset only. -/
theorem Overlay.read_congr {m m' : Memory} {x : Nat} (e : m.read x = m'.read x) : (g m).read x = (g m').read x := by
  rw [h.reads, e, ← h.reads]

/-- The same bytes laid over the buffer again change nothing. -/
theorem Overlay.read_idempotent (m : Memory) (x : Nat) : (g (g m)).read x = (g m).read x := by
  rw [h.reads (g m), h.reads m, ← Option.or_assoc, Option.or_self]

end

/-! ## `Build` as an overlay of the window (R58, R65, R163) -/

/-- The buffer of a success: payload and header, all in the window of a request that fits. -/
theorem overlay_layout {n : Nat} {bs : List Byte} (t l : Byte) (h : 2 + bs.length ≤ n) :
    Overlay n fun m => ((m.writeFrom 2 bs).write 0 t).write 1 l :=
  (overlay_write (by omega) l).comp ((overlay_write (by omega) t).comp (overlay_writeFrom h))

theorem windowSize_le_cap (p : Params) (l : Byte) : windowSize p l ≤ p.cap := Nat.min_le_right _ _

theorem windowSize_of_fits {p : Params} {l : Byte} (h : l.toNat + 2 ≤ p.cap) : windowSize p l = l.toNat + 2 :=
  Nat.min_eq_left h

/-- `Build` lays bytes over the window that do not depend on the buffer. -/
theorem overlay_build (t l : Byte) (p : Params) : Overlay (windowSize p l) fun b => (build t l p b).buf := by
  rcases Nat.lt_or_ge p.cap (l.toNat + 2) with h | h
  · simp only [build_overflow _ h]
    exact overlay_refl _
  rw [windowSize_of_fits h]
  rcases patternKind_cases t with ⟨rfl, -⟩ | ⟨ht, c, hc, -⟩ | ⟨ht, hc, -⟩
  · cases hr : prbsRejects p l
    · simp only [build_prbs9_accepted _ h hr]
      exact overlay_layout _ _ (by simp; omega)
    · simp only [build_prbs9_rejected _ h hr]
      split
      · exact overlay_writeFrom (by simp; omega)
      · exact overlay_refl _
  · simp only [build_fixed _ h ht hc]
    exact overlay_layout _ _ (by simp; omega)
  · simp only [build_unsupported _ h ht hc]
    exact overlay_refl _

/-- `Build` reports the first failing check of R152, whatever the buffer holds (R183). -/
theorem build_result (t l : Byte) (p : Params) (b : Memory) :
    (build t l p b).code = resultOf p t l ∧ (build t l p b).written = writtenOf (resultOf p t l) l := by
  rcases Nat.lt_or_ge p.cap (l.toNat + 2) with h | h
  · rw [build_overflow _ h, resultOf, if_pos (overflows_eq_true.2 h)]
    exact ⟨rfl, rfl⟩
  have hfits : ¬ overflows p l = true := by rw [overflows_eq_false.2 h]; decide
  rw [resultOf, if_neg hfits]
  rcases patternKind_cases t with ⟨rfl, e⟩ | ⟨ht, c, hc, e⟩ | ⟨ht, hc, e⟩ <;> rw [e]
  · cases hr : prbsRejects p l
    · rw [build_prbs9_accepted _ h hr]
      exact ⟨rfl, rfl⟩
    · rw [build_prbs9_rejected _ h hr]
      exact ⟨rfl, rfl⟩
  · rw [build_fixed _ h ht hc]
    exact ⟨rfl, rfl⟩
  · rw [build_unsupported _ h ht hc]
    exact ⟨rfl, rfl⟩

end Sys2Proof.Machine
end

