-- ==== Sys2Proof/Proofs/RequestCompletion.lean ====
section
/-! PROOFS. What the completion of any request leaves: its response, and `Build`'s buffer with the contended window bytes redrawn. -/

set_option autoImplicit false

namespace Sys2Proof.Machine

/-- `t` is `s` after a request of type `ty` and length `l`: the response of R183, and the buffer of `Build` but for the window bytes the
host wrote during BUSY (R59), whose offsets are forgotten. -/
structure Completes (s : State) (ty l : Byte) (t : State) : Prop where
  presents : Presents t (resultOf s.params ty l) (writtenOf (resultOf s.params ty l) l)
  params : t.params = s.params
  contended : t.contended = []
  txbuf : ∃ k hit, t.txbuf = (build ty l s.params s.txbuf).buf.drawAt k hit ∧
    ∀ a ∈ hit, a ∈ s.contended ∧ a < windowSize s.params l

/-- Every well-formed request completes with its own type and length. -/
theorem exec_completes {i : Instr} (h : i.wellFormed = true) (s : State) :
    ∃ t, exec i s = .next t ∧ Completes s i.reqType i.reqLen t := by
  obtain ⟨u, hbuf, hcont, e⟩ := endsWith_exec h s
  obtain ⟨hcode, hwritten⟩ := build_result i.reqType i.reqLen s.params s.txbuf
  have hparams : u.params = s.params := (exec_keepsRest e).params
  refine ⟨_, e, ⟨?_, hparams, rfl, u.draws, u.contendedIn i.reqLen, ?_, fun a ha => ?_⟩⟩
  · rw [hcode, hwritten]
    exact presents_respond _ _ _
  · rw [respond_txbuf, settleWindow_txbuf, hbuf]
  · obtain ⟨hmem, hwin⟩ := mem_contendedIn.1 ha
    exact ⟨hcont ▸ hmem, hparams ▸ of_decide_eq_true hwin⟩

/-- A `BUILD_INVALID` row ignores its type code (R166), so every request does what some well-formed one of its length does. -/
theorem exists_wellFormed_exec_eq (i : Instr) : ∃ j : Instr, j.wellFormed = true ∧ j.reqLen = i.reqLen ∧ exec j = exec i := by
  cases i
  case buildInvalid08 t l | buildInvalid10 t l | buildInvalid20 t l | buildInvalid40 t l | buildInvalid80 t l =>
    exact ⟨.buildInvalid03 l, rfl, rfl, rfl⟩
  all_goals exact ⟨_, rfl, rfl, rfl⟩

/-- Every request completes, in every state as the same type. -/
theorem exec_completes_any (i : Instr) : ∃ ty, ∀ s, ∃ t, exec i s = .next t ∧ Completes s ty i.reqLen t := by
  obtain ⟨j, hwf, hlen, hexec⟩ := exists_wellFormed_exec_eq i
  refine ⟨j.reqType, fun s => ?_⟩
  rw [← hexec, ← hlen]
  exact exec_completes hwf s

section
variable {s t : State} {ty l : Byte} (h : Completes s ty l t)
include h

/-- All a request does to the buffer is to lay bytes over its window. -/
theorem Completes.overlay : ∃ g, Overlay (windowSize s.params l) g ∧ t.txbuf = g s.txbuf := by
  obtain ⟨k, hit, e, hhit⟩ := h.txbuf
  exact ⟨_, (overlay_drawAt (k := k) fun a ha => (hhit a ha).2).comp (overlay_build ty l s.params), e⟩

theorem Completes.read_outside {a : Nat} (ha : windowSize s.params l ≤ a) : t.txbuf.read a = s.txbuf.read a := by
  obtain ⟨g, hg, e⟩ := h.overlay
  rw [e, hg.read_outside _ ha]

theorem Completes.inside (hs : ∀ c ∈ s.txbuf, c.1 < s.params.cap) : ∀ c ∈ t.txbuf, c.1 < s.params.cap := by
  obtain ⟨g, hg, e⟩ := h.overlay
  rw [e]
  exact hg.inside (windowSize_le_cap _ _) hs

theorem Completes.wf (hs : Memory.wf s.txbuf) : Memory.wf t.txbuf := by
  obtain ⟨g, hg, e⟩ := h.overlay
  rw [e]
  exact hg.wf _ hs

theorem Completes.read {a : Nat} (ha : a ∉ s.contended) : t.txbuf.read a = (build ty l s.params s.txbuf).buf.read a := by
  obtain ⟨k, hit, e, hhit⟩ := h.txbuf
  rw [e, Memory.read_drawAt_other _ _ fun hm => ha (hhit a hm).1]

theorem Completes.txbuf_of_quiet (hq : s.contended = []) : t.txbuf = (build ty l s.params s.txbuf).buf := by
  obtain ⟨k, hit, e, hhit⟩ := h.txbuf
  have hnone : hit = [] := List.eq_nil_iff_forall_not_mem.2 fun a ha => by simpa [hq] using (hhit a ha).1
  rw [e, hnone]
  rfl

/-- A second request of the same type and length gives the same response. -/
theorem Completes.response_congr {s' t' : State} (h' : Completes s' ty l t') (hp : s'.params = s.params) :
    t'.status = t.status ∧ t'.written = t.written ∧ t'.respValid = t.respValid := by
  obtain ⟨hstatus, hwritten, hvalid, -⟩ := h.presents
  obtain ⟨hstatus', hwritten', hvalid', -⟩ := h'.presents
  rw [hstatus, hwritten, hvalid, hstatus', hwritten', hvalid', hp]
  exact ⟨rfl, rfl, rfl⟩

end

/-- Settles O27: a request lays bytes over its window, which ends at the smaller of `L + 2` and `CAP`. -/
theorem requestsStayInsideBuffer : Obligations.RequestsStayInsideBuffer := by
  intro i s
  obtain ⟨ty, hcompletes⟩ := exec_completes_any i
  obtain ⟨t, e, h⟩ := hcompletes s
  exact ⟨t, e, fun a ha => h.read_outside ha, h.inside⟩

/-- Settles O29: `Build` lays the same bytes over the window a second time. -/
theorem repeatedRequestIsIdempotent : Obligations.RepeatedRequestIsIdempotent := by
  intro i s hq
  obtain ⟨ty, hcompletes⟩ := exec_completes_any i
  obtain ⟨t, et, ht⟩ := hcompletes s
  obtain ⟨u, eu, hu⟩ := hcompletes t
  obtain ⟨hstatus, hwritten, -⟩ := ht.response_congr hu ht.params
  refine ⟨t, u, et, eu, fun a => ?_, hstatus, hwritten⟩
  rw [hu.txbuf_of_quiet ht.contended, ht.params, ht.txbuf_of_quiet hq]
  exact (overlay_build ty i.reqLen s.params).read_idempotent s.txbuf a

end Sys2Proof.Machine
end

