-- ==== Sys2Proof/Proofs/HostBuffer.lean ====
section
/-! PROOFS. The host's buffer accesses: while IDLE, during BUSY, and after a completion. -/

set_option autoImplicit false

namespace Sys2Proof.Machine

section
variable {s : State} {a : Nat}

theorem guarded_eq_false (h : a < s.params.cap) : s.guarded a = false ↔ ¬ (s.phase = .busy ∧ a < s.reqL.toNat + 2) := by
  rw [← guarded_eq_true h, Bool.not_eq_true]

/-- A host read outside the window of a request in flight gives the byte there (R58). -/
theorem hostMove_readBuf_open (h : a < s.params.cap) (hg : s.guarded a = false) :
    hostMove (.readBuf a) s = .next { s with hostByte := some (s.byteAt a) } := by
  simp [hostMove, hostReadBuf, h, hg]

/-- A host read inside the window of a request in flight gives a free value (R58). -/
theorem hostMove_readBuf_guarded (h : a < s.params.cap) (hg : s.guarded a = true) :
    hostMove (.readBuf a) s = .next ({ s with hostByte := some (Config.freeValue 8 s.draws) }.countDraws 1) := by
  simp [hostMove, hostReadBuf, h, hg]

/-- A host write outside the window of a request in flight is stored (R51, R59). -/
theorem hostMove_writeBuf_open (v : Byte) (h : a < s.params.cap) (hg : s.guarded a = false) :
    hostMove (.writeBuf a v) s = .next (s.setBuf (s.txbuf.write a v)) := by
  simp [hostMove, hostWriteBuf, h, hg]

/-- A host write inside the buffer completes; whatever the window, it touches the byte and the contended mark of its own offset only,
and outside the window it is stored (R59). -/
theorem hostMove_writeBuf_frame (v : Byte) (h : a < s.params.cap) :
    ∃ u, hostMove (.writeBuf a v) s = .next u ∧ u.params = s.params ∧
      (∀ b, b ≠ a → u.txbuf.read b = s.txbuf.read b) ∧
      (∀ b, b ≠ a → b ∉ s.contended → b ∉ u.contended) ∧
      (s.guarded a = false → u.txbuf.read a = some v) := by
  rcases hostMove_writeBuf_cases a v s with ⟨hout, -⟩ | ⟨-, hg, e⟩ | ⟨-, -, e⟩
  · omega
  · refine ⟨_, e, rfl, fun _ _ => rfl, fun b hb hc => ?_, fun hf => by simp [hg] at hf⟩
    simp only
    split <;> simp [hb, hc]
  · exact ⟨_, e, rfl, fun b hb => Memory.read_write_other _ _ hb, fun _ _ hc => hc, fun _ => Memory.read_write_same _ _ _⟩

end

/-- Settles O55: a write outside the window is a write of the buffer. -/
theorem hostWriteStoresByte : Obligations.HostWriteStoresByte := by
  intro s a v ha hwin
  refine ⟨s.txbuf.write a v, hostMove_writeBuf_open v ha ((guarded_eq_false ha).2 hwin), Memory.read_write_same _ _ _, ?_, ?_⟩
  · exact fun b hb => Memory.read_write_other _ _ hb
  · exact fun h => Memory.wf_write h a v

/-- Settles O44: the read of R58, outside the window and inside it. -/
theorem hostReadFollowsWindow : Obligations.HostReadFollowsWindow := by
  intro s a ha
  constructor
  · intro hwin
    exact hostMove_readBuf_open ha ((guarded_eq_false ha).2 hwin)
  · intro hwin
    exact ⟨_, hostMove_readBuf_guarded ha ((guarded_eq_true ha).2 hwin)⟩

/-- Settles O45: `Build`'s byte at an offset depends on the buffer at that offset only, and no completion reaches beyond the window. -/
theorem hostWriteDuringBusy : Obligations.HostWriteDuringBusy := by
  intro i s a v hbusy hlen ha
  obtain ⟨ty, hcompletes⟩ := exec_completes_any i
  obtain ⟨u, eu, hparams, hread, hcont, hstored⟩ := hostMove_writeBuf_frame v ha
  obtain ⟨t, et, ht⟩ := hcompletes s
  obtain ⟨t', et', ht'⟩ := hcompletes u
  obtain ⟨hstatus, hwritten, hvalid⟩ := ht.response_congr ht' hparams
  refine ⟨u, t, t', eu, et, et', hstatus, hwritten, hvalid, fun b hb hc => ?_, fun hbeyond => ?_⟩
  · rw [ht'.read (hcont b hb hc), ht.read hc, hparams]
    exact (overlay_build ty i.reqLen s.params).read_congr (hread b hb)
  · have hwindow : windowSize u.params i.reqLen ≤ a := by
      rw [hlen]
      exact (Nat.min_le_left _ _).trans hbeyond
    rw [ht'.read_outside hwindow]
    exact hstored ((guarded_eq_false ha).2 (by omega))

/-- Settles O46: after completion the block is IDLE, so the read finds the byte in the buffer, which is `Build`'s. -/
theorem readAfterCompletionGivesBuiltByte : Obligations.ReadAfterCompletionGivesBuiltByte := by
  intro i s a hwf hq ha
  obtain ⟨t, e, h⟩ := exec_completes hwf s
  have hidle : t.guarded a = false := by simp [State.guarded, h.presents.phase]
  refine ⟨t, _, e, h.presents.respValid, hostMove_readBuf_open (h.params ▸ ha) hidle, ?_⟩
  rw [← h.txbuf_of_quiet hq]
  rfl

end Sys2Proof.Machine
end

