-- ==== Sys2Proof/Proofs/Invariant.lean ====
section
/-! PROOFS. The invariant of the machine, kept by the block's move and by every host action. -/

set_option autoImplicit false

namespace Sys2Proof.Machine

/-! ## What the invariant depends on -/

/-- The fields the invariant speaks of are unchanged, but that `rst` may fall. -/
structure KeepsCore (s t : State) : Prop where
  phase : t.phase = s.phase
  reqT : t.reqT = s.reqT
  reqL : t.reqL = s.reqL
  response : KeepsResponse s t
  txbuf : t.txbuf = s.txbuf
  params : t.params = s.params
  contended : t.contended = s.contended
  rst : t.rst = true → s.rst = true

theorem keepsCore_setSchedule (s : State) (ts : List Turn) : KeepsCore s (s.setSchedule ts) :=
  ⟨rfl, rfl, rfl, ⟨rfl, rfl, rfl⟩, rfl, rfl, rfl, id⟩

theorem Inv.of_keepsCore {s t : State} (h : Inv s) (k : KeepsCore s t) : Inv t := by
  obtain ⟨hphase, hreqT, hreqL, ⟨hvalid, hstatus, hwritten⟩, htxbuf, hparams, hcontended, hrst⟩ := k
  constructor
  · exact htxbuf ▸ h.bufCanonical
  · rw [htxbuf, hparams]; exact h.bufInside
  · rw [hphase, hvalid]; exact h.busyQuiet
  · rw [hphase, hvalid]; exact fun hr => h.rstQuiet (hrst hr)
  · rw [hphase, hparams, hreqL, hcontended]; exact h.contendedInside
  · rw [hvalid, hstatus, hwritten, hparams, hreqT, hreqL]; exact h.responseRight

/-- Bytes laid over the buffer below `CAP` keep the invariant. -/
theorem Inv.setBuf {s : State} (h : Inv s) {g : Memory → Memory} (hg : Overlay s.params.cap g) : Inv (s.setBuf (g s.txbuf)) :=
  { h with
    bufCanonical := hg.wf _ h.bufCanonical
    bufInside := hg.inside le_rfl h.bufInside }

/-! ## Every move keeps it -/

/-- What a host action that answers a next state did: nothing the invariant speaks of, the rise of `rst`, or a buffer write. -/
theorem hostMove_core_cases {a : HostAction} {s t : State} (h : hostMove a s = .next t) :
    KeepsCore s t ∨ (s.rst = false ∧ t = enterReset s) ∨
    (∃ x v, a = .writeBuf x v ∧ x < s.params.cap ∧ s.guarded x = true ∧
      t = { s with contended := if x ∈ s.contended then s.contended else s.contended ++ [x] }) ∨
    ∃ x v, a = .writeBuf x v ∧ x < s.params.cap ∧ s.guarded x = false ∧ t = s.setBuf (s.txbuf.write x v) := by
  cases a with
  | drive valid x y =>
    cases h
    exact .inl ⟨rfl, rfl, rfl, ⟨rfl, rfl, rfl⟩, rfl, rfl, rfl, id⟩
  | setRst level =>
    rcases hostMove_setRst_cases level s with ⟨-, -, e⟩ | ⟨-, hr, e⟩ | ⟨-, e⟩ <;> cases e.symm.trans h
    · exact .inl ⟨rfl, rfl, rfl, ⟨rfl, rfl, rfl⟩, rfl, rfl, rfl, id⟩
    · exact .inr (.inl ⟨hr, rfl⟩)
    · exact .inl ⟨rfl, rfl, rfl, ⟨rfl, rfl, rfl⟩, rfl, rfl, rfl, nofun⟩
  | readBuf a =>
    rcases hostMove_readBuf_cases a s with ⟨-, e⟩ | ⟨-, -, e⟩ | ⟨-, -, e⟩ <;> cases e.symm.trans h <;>
      exact .inl ⟨rfl, rfl, rfl, ⟨rfl, rfl, rfl⟩, rfl, rfl, rfl, id⟩
  | writeBuf a v =>
    rcases hostMove_writeBuf_cases a v s with ⟨-, e⟩ | ⟨ha, hg, e⟩ | ⟨ha, hg, e⟩ <;> cases e.symm.trans h
    · exact .inr (.inr (.inl ⟨a, v, rfl, ha, hg, rfl⟩))
    · exact .inr (.inr (.inr ⟨a, v, rfl, ha, hg, rfl⟩))
  | readResp =>
    obtain ⟨-, rfl⟩ := hostMove_readResp_next h
    exact .inl ⟨rfl, rfl, rfl, ⟨rfl, rfl, rfl⟩, rfl, rfl, rfl, id⟩
  | forward =>
    obtain ⟨-, rfl⟩ := hostMove_forward_next h
    exact .inl ⟨rfl, rfl, rfl, ⟨rfl, rfl, rfl⟩, rfl, rfl, rfl, id⟩

/-- A reset redraws offsets of the buffer only (R201). -/
theorem lt_cap_of_mem_resetWindow {s : State} {a : Nat} (h : a ∈ resetWindow s) : a < s.params.cap := by
  unfold resetWindow at h
  split at h
  · exact (List.mem_range.1 h).trans_le (windowSize_le_cap _ _)
  · simp at h

theorem inv_enterReset {s : State} (h : Inv s) : Inv (enterReset s) := by
  have hoverlay := overlay_drawAt (k := s.draws + 7) fun a => lt_cap_of_mem_resetWindow (s := s) (a := a)
  exact
    { bufCanonical := hoverlay.wf _ h.bufCanonical
      bufInside := hoverlay.inside le_rfl h.bufInside
      busyQuiet := fun _ => rfl
      rstQuiet := fun _ => ⟨rfl, rfl⟩
      contendedInside := nofun
      responseRight := nofun }

/-- A new contended offset lies in the window of the request in flight. -/
theorem inv_contend {s : State} (h : Inv s) {x : Nat} (hg : s.guarded x = true) :
    Inv { s with contended := if x ∈ s.contended then s.contended else s.contended ++ [x] } := by
  refine { h with contendedInside := fun b hb => ?_ }
  have hmem : b ∈ s.contended ∨ b = x := by
    simp only at hb
    split at hb
    · exact .inl hb
    · simpa using hb
  rcases hmem with hb | rfl
  · exact h.contendedInside b hb
  · simpa [State.guarded] using hg

theorem inv_hostMove {a : HostAction} {s t : State} (hinv : Inv s) (h : hostMove a s = .next t) : Inv t := by
  rcases hostMove_core_cases h with hk | ⟨-, rfl⟩ | ⟨x, v, -, -, hg, rfl⟩ | ⟨x, v, -, hx, -, rfl⟩
  · exact hinv.of_keepsCore hk
  · exact inv_enterReset hinv
  · exact inv_contend hinv hg
  · exact hinv.setBuf (overlay_write hx v)

theorem inv_acceptRequest {s : State} (h : Inv s) (hr : s.rst = false) (ty l : Byte) : Inv (acceptRequest ty l s) :=
  { h with
    busyQuiet := fun _ => rfl
    rstQuiet := fun hr' => by simp [hr] at hr'
    contendedInside := nofun
    responseRight := nofun }

/-- The block's move in BUSY completes the latched request (R32). -/
theorem blockMove_busy_completes {s t : State} (h : exec (decodeWord (requestWord s)) s = .next t) :
    Completes s s.reqT s.reqL t := by
  obtain ⟨t', e, hc⟩ := exec_completes (wellFormed_decodeWord (requestWord s)) s
  rw [reqType_decodeWord, reqLen_decodeWord, requestWord, wordType_mkWord, wordLen_mkWord] at hc
  cases e.symm.trans h
  exact hc

/-- A completed request shows the response that its latched type and length call for. -/
theorem inv_of_completes {s t : State} (hinv : Inv s) (hr : s.rst = false) (hk : KeepsRest s t)
    (hc : Completes s s.reqT s.reqL t) : Inv t := by
  obtain ⟨hstatus, hwritten, -, hidle⟩ := hc.presents
  constructor
  · exact hc.wf hinv.bufCanonical
  · rw [hc.params]; exact hc.inside hinv.bufInside
  · simp [hidle]
  · simp [hk.rst, hr]
  · simp [hc.contended]
  · rw [hstatus, hwritten, hc.params, hk.reqT, hk.reqL]; exact fun _ => ⟨rfl, rfl⟩

theorem inv_blockMove {s t : State} (hinv : Inv s) (h : blockMove s = .next t) : Inv t := by
  rcases blockMove_next_cases h with ⟨hr, rfl⟩ | ⟨hr, -, rfl⟩ | ⟨hr, -, hx⟩
  · rw [holdReset_quiet (hinv.rstQuiet hr)]
    exact hinv
  · rcases idleMove_cases s with ⟨-, e⟩ | ⟨-, e⟩ <;> rw [e]
    · exact hinv
    · exact inv_acceptRequest hinv hr _ _
  · exact inv_of_completes hinv hr (exec_keepsRest hx) (blockMove_busy_completes hx)

/-- Settles O40: the block's move and every host action keep the invariant, and the turn itself is no part of it. -/
theorem everyStepKeepsInvariant : Obligations.EveryStepKeepsInvariant := by
  intro s t hinv h
  have hturn (rest : List Turn) : Inv (s.setSchedule rest) := hinv.of_keepsCore (keepsCore_setSchedule s rest)
  rcases step_next_cases h with ⟨rest, -, hb⟩ | ⟨a, rest, -, hh⟩
  · exact inv_blockMove (hturn rest) hb
  · exact inv_hostMove (hturn rest) hh

end Sys2Proof.Machine
end

