-- ==== Sys2Proof/Proofs/DutifulHost.lean ====
section
/-! PROOFS. What a host that keeps its duties sees of the buffer (R61). -/

set_option autoImplicit false

namespace Sys2Proof.Machine

theorem BlockNext.ne_host {s : State} {rest : List Turn} (h : BlockNext s rest) (a : HostAction) (ts : List Turn) :
    s.schedule ≠ .host a :: ts := by
  rcases h with ⟨e, -⟩ | e <;> simp [e]

theorem actionKept_of_dutyKept {s : State} {a : HostAction} {rest : List Turn} (h : dutyKept s = true)
    (hs : s.schedule = .host a :: rest) : actionKept s a = true := by
  rw [dutyKept, hs] at h
  exact h

/-- The duties for an action do not depend on the turns to come. -/
theorem actionKept_setSchedule (s : State) (ts : List Turn) (a : HostAction) :
    actionKept (s.setSchedule ts) a = actionKept s a := by
  cases a <;> rfl

theorem actionKept_readBuf {s : State} {a : Nat} :
    actionKept s (.readBuf a) = true ↔ a < s.params.cap ∧ s.guarded a = false := by
  simp [actionKept]

theorem actionKept_writeBuf {s : State} {a : Nat} {v : Byte} :
    actionKept s (.writeBuf a v) = true ↔ a < s.params.cap ∧ s.guarded a = false := by
  simp [actionKept]

/-- A host action that keeps its duty and does not end in reset stores a byte outside the window of any request in flight, or touches
nothing the invariant speaks of. -/
theorem hostMove_cases_of_kept {a : HostAction} {s t : State} (hkept : actionKept s a = true) (h : hostMove a s = .next t)
    (hr : t.rst = false) :
    KeepsCore s t ∨
    ∃ x v, a = .writeBuf x v ∧ x < s.params.cap ∧ s.guarded x = false ∧ t = s.setBuf (s.txbuf.write x v) := by
  rcases hostMove_core_cases h with hk | ⟨-, rfl⟩ | ⟨x, v, rfl, -, hg, -⟩ | hw
  · exact .inl hk
  · simp at hr
  · simp [(actionKept_writeBuf.1 hkept).2] at hg
  · exact .inr hw

/-- In IDLE the block touches neither the buffer nor an empty list of contended offsets. -/
theorem idleMove_quiet {s : State} (hq : s.contended = []) :
    (idleMove s).txbuf = s.txbuf ∧ (idleMove s).contended = [] := by
  rcases idleMove_cases s with ⟨-, e⟩ | ⟨-, e⟩ <;> rw [e]
  · exact ⟨rfl, hq⟩
  · exact ⟨rfl, rfl⟩

/-- Settles O56: only a completion goes from BUSY to IDLE, and of the other moves only the host's own write touches a byte. -/
theorem dutifulHostSeesBuiltBuffer : Obligations.DutifulHostSeesBuiltBuffer := by
  intro s t _ hq hr hkept h ht
  rcases step_next_cases h with ⟨rest, hn, hb⟩ | ⟨a, rest, hs, hh⟩
  · have hnoHost (a : Nat) (ts : List Turn) : s.schedule = .host (.readBuf a) :: ts → t.hostByte = some (s.byteAt a) :=
      fun e => absurd e (hn.ne_host _ _)
    rcases blockMove_next_cases hb with ⟨hrst, -⟩ | ⟨-, hidle, rfl⟩ | ⟨-, hbusy, hx⟩
    · exact absurd hrst (by simp [hr])
    · obtain ⟨htxbuf, hcontended⟩ := idleMove_quiet (s := s.setSchedule rest) hq
      refine ⟨fun hbusy => ?_, fun _ a => .inl (by rw [htxbuf]; rfl), hnoHost, hcontended⟩
      cases hidle.symm.trans hbusy
    · have hc := blockMove_busy_completes hx
      obtain ⟨-, -, hvalid, hidle⟩ := hc.presents
      exact ⟨fun _ _ => ⟨hvalid, hc.txbuf_of_quiet hq⟩, fun hno => absurd ⟨hbusy, hidle⟩ hno, hnoHost, hc.contended⟩
  · have hact := (actionKept_setSchedule s rest a).trans (actionKept_of_dutyKept hkept hs)
    have hread (x : Nat) (ts : List Turn) (e : s.schedule = .host (.readBuf x) :: ts) : t.hostByte = some (s.byteAt x) := by
      cases hs.symm.trans e
      obtain ⟨hx, hg⟩ := actionKept_readBuf.1 hact
      cases (hostMove_readBuf_open hx hg).symm.trans hh
      rfl
    rcases hostMove_cases_of_kept hact hh ht with hk | ⟨x, v, rfl, hx, hg, rfl⟩
    · refine ⟨fun hbusy hidle => ?_, fun _ b => .inl (by rw [hk.txbuf]; rfl), hread, hk.contended.trans hq⟩
      cases hidle.symm.trans (hk.phase.trans hbusy)
    · refine ⟨fun hbusy hidle => ?_, fun _ b => ?_, hread, hq⟩
      · cases hidle.symm.trans hbusy
      · by_cases hbx : b = x
        · subst hbx
          exact .inr ⟨⟨v, rest, hs, Memory.read_write_same _ _ _⟩, (guarded_eq_false hx).1 hg⟩
        · exact .inl (Memory.read_write_other _ _ hbx)

end Sys2Proof.Machine
end

