-- ==== Sys2Proof/Proofs/RequestEncoding.lean ====
section
/-! PROOFS. The statements about the encoding: round trips, the rows of the opcode table, the sample words and the assembler. -/

set_option autoImplicit false

namespace Sys2Proof

/-! ## Round trips -/

/-- Settles O1: the decoder's round trip, row by row. -/
theorem decodeAfterEncode : Obligations.DecodeAfterEncode :=
  fun _ hwf => decodeWord_encode hwf

@[simp] theorem encode_decodeWord (w : ReqWord) : encode (decodeWord w) = w := by
  rw [encode, reqType_decodeWord, reqLen_decodeWord, mkWord_fields]

/-- Settles O2: decoding keeps both fields of the word, and the word is its two fields. -/
theorem encodeAfterDecode : Obligations.EncodeAfterDecode :=
  fun w => ⟨wellFormed_decodeWord w, encode_decodeWord w, reqType_decodeWord w, reqLen_decodeWord w⟩

/-! ## The rows of the opcode table (R80) -/

/-- The word of a well-formed request selects the request's own row. -/
theorem row_selects_encode (i : Instr) : Laws.RowBits.Statement i := by
  cases i with
  | buildPrbs9 l => exact Laws.RowBits.buildPrbs9 l
  | buildFill0F l => exact Laws.RowBits.buildFill0F l
  | buildFill55 l => exact Laws.RowBits.buildFill55 l
  | buildFillFF l => exact Laws.RowBits.buildFillFF l
  | buildFill00 l => exact Laws.RowBits.buildFill00 l
  | buildFillF0 l => exact Laws.RowBits.buildFillF0 l
  | buildFillAA l => exact Laws.RowBits.buildFillAA l
  | buildInvalid03 l => exact Laws.RowBits.buildInvalid03 l
  | buildInvalid08 t l => exact Laws.RowBits.buildInvalid08 t l
  | buildInvalid10 t l => exact Laws.RowBits.buildInvalid10 t l
  | buildInvalid20 t l => exact Laws.RowBits.buildInvalid20 t l
  | buildInvalid40 t l => exact Laws.RowBits.buildInvalid40 t l
  | buildInvalid80 t l => exact Laws.RowBits.buildInvalid80 t l

/-- Cover: the row of the decoded request selects the word. -/
theorem row_decodeWord_selects (w : ReqWord) :
    ∃ r, opcodeTable[(decodeWord w).row]? = some r ∧ r.selects w = true := by
  have hrow := row_selects_encode (decodeWord w) (wellFormed_decodeWord w)
  rwa [encode_decodeWord] at hrow

/-- Two rows that select one word agree in the bits both of them fix. -/
theorem OpcodeRow.patterns_agree {r r' : OpcodeRow} {w : ReqWord} (h : r.selects w = true) (h' : r'.selects w = true) :
    r.pattern &&& r'.mask = r'.pattern &&& r.mask := by
  rw [← eq_of_beq h, ← eq_of_beq h', BitVec.and_assoc, BitVec.and_assoc, BitVec.and_comm r.mask]

/-- Any two rows of the table differ in a bit that both of them fix. -/
theorem opcodeTable_patterns_differ :
    opcodeTable.Pairwise fun r r' => r.pattern &&& r'.mask ≠ r'.pattern &&& r.mask := by
  decide

/-- Disjointness: a word selects one row of the table at most. -/
theorem selected_row_unique {w : ReqWord} {n m : Nat} {r r' : OpcodeRow} (hn : opcodeTable[n]? = some r)
    (hm : opcodeTable[m]? = some r') (h : r.selects w = true) (h' : r'.selects w = true) : n = m := by
  have hdiffer := List.pairwise_iff_getElem.1 opcodeTable_patterns_differ
  obtain ⟨hnlt, rfl⟩ := List.getElem?_eq_some_iff.1 hn
  obtain ⟨hmlt, rfl⟩ := List.getElem?_eq_some_iff.1 hm
  rcases Nat.lt_trichotomy n m with hlt | heq | hgt
  · exact absurd (OpcodeRow.patterns_agree h h') (hdiffer n m hnlt hmlt hlt)
  · exact heq
  · exact absurd (OpcodeRow.patterns_agree h' h) (hdiffer m n hmlt hnlt hgt)

/-- Settles O3: the decoded request's row selects the word, and no second row does. -/
theorem oneOpcodeRowSelectsEachWord : Obligations.OneOpcodeRowSelectsEachWord := by
  intro w n r hn
  obtain ⟨r', hrow, hsel⟩ := row_decodeWord_selects w
  constructor
  · intro h
    exact selected_row_unique hn hrow h hsel
  · rintro rfl
    cases hn.symm.trans hrow
    exact hsel

/-- Settles O4: the decoder evaluated at the seven words. -/
theorem sampleWordsDecode : Obligations.SampleWordsDecode := by
  unfold Obligations.SampleWordsDecode
  decide

end Sys2Proof

namespace Sys2Proof.Machine

/-! ## The assembler (R81) -/

/-- A word as a number: the length above the type (R70). -/
theorem toNat_mkWord (t l : Byte) : (mkWord t l).toNat = l.toNat * 256 + t.toNat := by
  rw [mkWord, BitVec.toNat_append, ← Nat.shiftLeft_add_eq_or_of_lt t.isLt, Nat.shiftLeft_eq]

theorem assemble_of_le {r : AsmRequest} {t l : Nat} (he : AsmRequest.expand r = (t, l)) (h : t ≤ 255 ∧ l ≤ 255) :
    assemble r = .ok (mkWord (BitVec.ofNat 8 t) (BitVec.ofNat 8 l)) := by
  rw [assemble, he]
  exact if_pos h

theorem assemble_outOfRange {r : AsmRequest} {t l : Nat} (he : AsmRequest.expand r = (t, l)) (h : ¬ (t ≤ 255 ∧ l ≤ 255)) :
    assemble r = .error .outOfRange := by
  rw [assemble, he]
  exact if_neg h

/-- Settles O5: each form expands to its type code and length, and the assembler sees no more of it. -/
theorem pseudoRequestsAssemble : Obligations.PseudoRequestsAssemble := by
  intro t l r hform
  have hexpand : AsmRequest.expand r = (t, l) := by
    simp only [List.mem_cons, Prod.mk.injEq, List.not_mem_nil, or_false] at hform
    rcases hform with ⟨rfl, -⟩ | ⟨rfl, rfl⟩ | ⟨rfl, rfl⟩ | ⟨rfl, rfl⟩ | ⟨rfl, rfl⟩ | ⟨rfl, rfl⟩ | ⟨rfl, rfl⟩ | ⟨rfl, rfl⟩ <;> rfl
  refine ⟨fun hle => ⟨_, assemble_of_le hexpand hle, ?_⟩, assemble_outOfRange hexpand⟩
  rw [toNat_mkWord, BitVec.toNat_ofNat, BitVec.toNat_ofNat]
  omega

end Sys2Proof.Machine
end

