-- ==== Sys2Proof/Proofs/RequestOutcome.lean ====
section
/-! PROOFS. The statements about the response word, the fetched request and the absence of refusals. -/

set_option autoImplicit false

namespace Sys2Proof.Machine

/-! ## The response -/

theorem toNat_writtenOk (l : Byte) : (writtenOk l).toNat = l.toNat + 2 := by
  rw [writtenOk, totalBytes, hdrBytes, BitVec.toNat_ofNat]
  omega

/-- `WRITTEN` as a number follows the code (R74). -/
theorem toNat_writtenOf (r : ResultCode) (l : Byte) :
    (writtenOf r l).toNat = if r.code = ResultCode.ok.code then l.toNat + 2 else 0 := by
  cases r with
  | ok => exact toNat_writtenOk l
  | bufferOverflow | invalidPatternType | sequenceLengthExceeded => rfl

/-- Settles O26: every request completes with the response of some result, and `WRITTEN` follows the result's code. -/
theorem writtenFollowsStatus : Obligations.WrittenFollowsStatus := by
  intro i s
  obtain ⟨ty, hcompletes⟩ := exec_completes_any i
  obtain ⟨t, e, h⟩ := hcompletes s
  refine ⟨t, e, ?_⟩
  rw [h.presents.status, h.presents.written]
  exact toNat_writtenOf _ _

/-- The three fields of a response word, from its low end (R72). -/
theorem respWordOf_fields (written : BitVec 9) (status : BitVec 2) :
    (respWordOf written status).extractLsb' 0 2 = status ∧ (respWordOf written status).extractLsb' 2 5 = 0#5 ∧
    (respWordOf written status).extractLsb' 7 9 = written :=
  ⟨BitVec.extractLsb'_append_eq_right,
   (BitVec.extractLsb'_append_eq_of_le (Nat.le_refl 2)).trans BitVec.extractLsb'_append_eq_right,
   (BitVec.extractLsb'_append_eq_of_le (by decide)).trans BitVec.extractLsb'_append_eq_left⟩

/-- Settles O48: the response word is its three fields one above the other, and the code numbers are `ResultCode.code`'s. -/
theorem responseWordFields : Obligations.ResponseWordFields := by
  intro s
  obtain ⟨hstatus, hzero, hwritten⟩ := respWordOf_fields s.written s.status
  exact ⟨hstatus, hzero, hwritten, rfl, rfl, rfl, rfl⟩

/-! ## The step -/

/-- The state a request word of the full width is placed in: the request accepted, the block's turn next. -/
theorem withFetchWord_eq (s : State) (w : ReqWord) :
    s.withFetchWord 16 w.toNat =
      (acceptRequest (wordType w) (wordLen w) { s with rst := false }).setSchedule (.block :: s.schedule) := by
  have hw : BitVec.ofNat 16 (w.toNat % 2 ^ 16) = w := by
    rw [Nat.mod_eq_of_lt w.isLt, BitVec.ofNat_toNat, BitVec.setWidth_eq]
  rw [State.withFetchWord, hw]

/-- Settles O32: the step is the block's in BUSY, on the latched fields, which decode to the request they came from. -/
theorem fetchedWordRunsNext : Obligations.FetchedWordRunsNext := by
  intro i s hwf
  rw [withFetchWord_eq, wordType_encode, wordLen_encode, step_busy (rest := s.schedule) (.inr rfl) rfl rfl]
  exact congrArg (exec · _) (decodeWord_encode hwf)

theorem exec_ne_refused (i : Instr) (s : State) (e : Refusal) : exec i s ≠ .refused e := by
  obtain ⟨_, hcompletes⟩ := exec_completes_any i
  obtain ⟨t, hnext, -⟩ := hcompletes s
  rw [hnext]
  nofun

/-- The block has a move in reset, in IDLE and in BUSY (R30 to R32, R200). -/
theorem blockMove_ne_refused (s : State) (e : Refusal) : blockMove s ≠ .refused e := by
  cases hr : s.rst
  · cases hp : s.phase
    · rw [blockMove_idle hr hp]
      nofun
    · rw [blockMove_busy hr hp]
      exact exec_ne_refused _ s e
  · rw [blockMove_reset hr]
    nofun

/-- A host action has a next state or faults. -/
theorem hostMove_ne_refused (a : HostAction) (s : State) (e : Refusal) : hostMove a s ≠ .refused e := by
  cases a with
  | drive valid x y => nofun
  | setRst level => rcases hostMove_setRst_cases level s with ⟨-, -, h⟩ | ⟨-, -, h⟩ | ⟨-, h⟩ <;> rw [h] <;> nofun
  | readBuf a => rcases hostMove_readBuf_cases a s with ⟨-, h⟩ | ⟨-, -, h⟩ | ⟨-, -, h⟩ <;> rw [h] <;> nofun
  | writeBuf a v => rcases hostMove_writeBuf_cases a v s with ⟨-, h⟩ | ⟨-, -, h⟩ | ⟨-, -, h⟩ <;> rw [h] <;> nofun
  | readResp =>
    rw [hostMove, hostReadResp]
    split <;> nofun
  | forward =>
    rw [hostMove, hostForward]
    split_ifs <;> nofun

/-- Settles O39: a step is a move of the block or of the host, and neither is refused. -/
theorem noStepIsRefused : Obligations.NoStepIsRefused := by
  intro s e
  rcases step_cases s with ⟨rest, -, h⟩ | ⟨a, rest, -, h⟩ <;> rw [h]
  · exact blockMove_ne_refused _ e
  · exact hostMove_ne_refused a _ e

end Sys2Proof.Machine
end

