-- ==== Sys2Proof/Proofs/PrbsSequence.lean ====
section
/-! PROOFS. The statements about the LFSR alone: its step, its sequence and its period. -/

set_option autoImplicit false

namespace Sys2Proof.Machine

/-! ## One step, and eight at once (R101 to R107) -/

theorem getLsbD_feedback (s : LfsrWord) : (feedback s).getLsbD 0 = (s.getLsbD 0 ^^ s.getLsbD 4) := by
  simp [feedback]

/-- Settles O6: the bits of the feedback, the step and the output. -/
theorem lfsrStepBits : Obligations.LfsrStepBits := fun s =>
  ⟨getLsbD_feedback s, fun _ h => getLsbD_lfsrStep_of_lt h, getLsbD_lfsrStep_eight s, getLsbD_bitOut s⟩

/-- Settles O7: the byte step is eight bit steps, and following those bit by bit gives the closed form of R107. -/
theorem byteStepIsEightBitSteps : Obligations.ByteStepIsEightBitSteps := by
  intro s
  refine ⟨fun j h => getLsbD_byteOut h, lfsrByteStep_eq_iterate s, ?_⟩
  rw [lfsrByteStep_eq_iterate]
  simp [getLsbD_lfsrStep_of_lt, getLsbD_lfsrStep_eight, Bool.xor_comm, -BitVec.getLsbD_eq_getElem]

/-! ## The sequence (R105) -/

theorem prbsBit_of_lt {n : Nat} (h : n < 9) : prbsBit n = true := by
  have hseed : ∀ j < 9, seed.getLsbD j = true := by decide
  rw [prbsBit, getLsbD_zero_iterate_lfsrStep (by omega), hseed n h]

/-- The sequence bit that enters the register is the feedback of the state before the step. -/
theorem prbsBit_add_nine (n : Nat) : prbsBit (n + 9) = (prbsBit n ^^ prbsBit (n + 4)) := by
  calc prbsBit (n + 9)
      = (lfsrStep^[n + 1] seed).getLsbD 8 := by rw [getLsbD_iterate_lfsrStep_seed le_rfl, Nat.add_assoc]
    _ = ((lfsrStep^[n] seed).getLsbD 0 ^^ (lfsrStep^[n] seed).getLsbD 4) := by
        rw [Function.iterate_succ_apply', getLsbD_lfsrStep_eight]
    _ = (prbsBit n ^^ prbsBit (n + 4)) := by
        rw [getLsbD_iterate_lfsrStep_seed (by decide), getLsbD_iterate_lfsrStep_seed (by decide), Nat.add_zero]

/-- Settles O8: every state shows nine bits of the sequence, so the step's bits are the recurrence. -/
theorem prbsSequenceRecurrence : Obligations.PrbsSequenceRecurrence := by
  refine ⟨fun _ h => prbsBit_of_lt h, prbsBit_add_nine, fun _ _ h => getLsbD_iterate_lfsrStep_seed h, fun n j h => ?_⟩
  rw [getLsbD_byteOut (by omega), getLsbD_iterate_lfsrStep_seed (by omega)]

/-! ## The states before each payload byte (R115) -/

/-- The states of R115's table, `F8^k(0x1FF)` for `k` from 0 to 63. -/
def byteStates : List LfsrWord :=
  [ 0x1FF, 0x1C1, 0x0FB, 0x0E8, 0x04C, 0x090, 0x172, 0x18B, 0x1E7, 0x1B3, 0x151, 0x189, 0x163, 0x1AB, 0x123, 0x023,
    0x002, 0x084, 0x018, 0x072, 0x1AA, 0x161, 0x12F, 0x13B, 0x051, 0x1A8, 0x1E5, 0x137, 0x149, 0x1FB, 0x0C9, 0x0CA,
    0x00C, 0x118, 0x053, 0x12C, 0x1FD, 0x145, 0x0E3, 0x09A, 0x1E6, 0x1F1, 0x05D, 0x0B0, 0x1B6, 0x01B, 0x0B4, 0x0BE,
    0x02A, 0x050, 0x1EA, 0x0E9, 0x00E, 0x19C, 0x04B, 0x15E, 0x057, 0x024, 0x1CC, 0x1A1, 0x1B7, 0x059, 0x1B8, 0x187 ]

/-- Each entry of the table is one byte step from the entry before. -/
theorem byteStates_succ : ∀ k < 63, byteStates[k + 1]? = byteStates[k]?.map lfsrByteStep := by decide

theorem getElem?_byteStates {k : Nat} (h : k < 64) : byteStates[k]? = some (lfsrByteStep^[k] seed) := by
  induction k with
  | zero => rfl
  | succ k ih =>
    rw [byteStates_succ k (by omega), ih (by omega), Function.iterate_succ_apply']
    rfl

/-- Bit steps from a state of the table: `8 k + r` steps from the seed are `r` steps from entry `k`. -/
theorem iterate_lfsrStep_seed_of_byteStates {k r : Nat} {x : LfsrWord} (hk : k < 64) (h : byteStates[k]? = some x) :
    lfsrStep^[r + 8 * k] seed = lfsrStep^[r] x := by
  rw [Function.iterate_add_apply, ← iterate_lfsrByteStep, ← Option.some.inj ((getElem?_byteStates hk).symm.trans h)]

/-- The lengths R113 lists. -/
def clearedBitLengths : List Nat :=
  [1, 2, 3, 4, 6, 8, 9, 10, 12, 14, 18, 21, 26, 27, 30, 31, 32, 37, 39, 40, 41, 42, 44, 45, 47, 48, 51, 52,
    54, 59, 60, 61, 63, 64]

/-- The bit that R113 keeps out of the last byte of a payload of `k + 1` bytes is bit 7 of the state before that byte. -/
theorem prbsBit_last_eq_true_iff {k : Nat} (h : k < 64) : prbsBit (8 * k + 7) = true ↔ k + 1 ∈ clearedBitLengths := by
  have htable : ∀ k < 64, byteStates[k]?.map (·.getLsbD 7) = some (decide (k + 1 ∈ clearedBitLengths)) := by decide
  have hbit := htable k h
  rw [getElem?_byteStates h, Option.map_some, Option.some_inj, iterate_lfsrByteStep,
    getLsbD_iterate_lfsrStep_seed (by decide)] at hbit
  rw [hbit, decide_eq_true_iff]

/-! ## The period (R105) -/

theorem isPeriodicPt_lfsrStep_seed : Function.IsPeriodicPt lfsrStep 511 seed := by
  have hstate : lfsrStep^[7 + 8 * 63] seed = lfsrStep^[7] 0x187 :=
    iterate_lfsrStep_seed_of_byteStates (by decide) rfl
  exact hstate.trans (by decide)

/-- The proper divisors of 511 are 1, 7 and 73, and none of them is a period. -/
theorem minimalPeriod_lfsrStep_seed : Function.minimalPeriod lfsrStep seed = 511 := by
  have hone : lfsrStep^[1] seed ≠ seed := by decide
  have hseven : lfsrStep^[7] seed ≠ seed := by decide
  have hstate : lfsrStep^[1 + 8 * 9] seed = lfsrStep^[1] 0x1B3 :=
    iterate_lfsrStep_seed_of_byteStates (by decide) rfl
  have hseventyThree : lfsrStep^[73] seed ≠ seed := fun e => absurd (hstate.symm.trans e) (by decide)
  have hperiod := Function.iterate_minimalPeriod (f := lfsrStep) (x := seed)
  have hdvd : Function.minimalPeriod lfsrStep seed ∈ Nat.divisors 511 :=
    Nat.mem_divisors.2 ⟨isPeriodicPt_lfsrStep_seed.minimalPeriod_dvd, by decide⟩
  have hdivisors : Nat.divisors 511 = {1, 7, 73, 511} := by simp [Nat.divisors_ofNat]
  rw [hdivisors] at hdvd
  simp only [Finset.mem_insert, Finset.mem_singleton] at hdvd
  rcases hdvd with e | e | e | e
  · exact absurd (e ▸ hperiod) hone
  · exact absurd (e ▸ hperiod) hseven
  · exact absurd (e ▸ hperiod) hseventyThree
  · exact e

theorem lfsrStep_zero : lfsrStep 0#9 = 0#9 := by decide

/-- A run that reached the fixed point 0 would stay there, and it comes back to the seed. -/
theorem iterate_lfsrStep_seed_ne_zero (n : Nat) : lfsrStep^[n] seed ≠ 0#9 := by
  intro h
  have hback : lfsrStep^[n * 511] seed = seed := isPeriodicPt_lfsrStep_seed.const_mul n
  have hstay : lfsrStep^[n * 511] seed = 0#9 := by
    rw [show n * 511 = n * 510 + n by omega, Function.iterate_add_apply, h, Function.iterate_fixed lfsrStep_zero]
  exact absurd (hback.symm.trans hstay) (by decide)

theorem iterate_lfsrStep_seed_injOn : Set.InjOn (fun n => lfsrStep^[n] seed) (Set.Iio 511) :=
  minimalPeriod_lfsrStep_seed ▸ Function.iterate_injOn_Iio_minimalPeriod

/-- One period visits 511 states, none of them 0: that is all the non-zero states there are. -/
theorem exists_iterate_lfsrStep_seed {s : LfsrWord} (h : s ≠ 0#9) : ∃ n < 511, lfsrStep^[n] seed = s := by
  have hvisited : (Finset.range 511).image (fun n => lfsrStep^[n] seed) = Finset.univ.erase 0#9 := by
    refine Finset.eq_of_subset_of_card_le (fun x hx => ?_) ?_
    · obtain ⟨n, -, rfl⟩ := Finset.mem_image.1 hx
      exact Finset.mem_erase.2 ⟨iterate_lfsrStep_seed_ne_zero n, Finset.mem_univ _⟩
    · rw [Finset.card_image_of_injOn (by simpa using iterate_lfsrStep_seed_injOn), Finset.card_range,
        Finset.card_erase_of_mem (Finset.mem_univ _), Finset.card_univ, ← FinEnum.card_eq_fintypeCard, FinEnum.card_bitVec]
      decide
  have hmem : s ∈ (Finset.range 511).image (fun n => lfsrStep^[n] seed) :=
    hvisited ▸ Finset.mem_erase.2 ⟨h, Finset.mem_univ _⟩
  simpa using hmem

/-- Settles O9: the period is 511, and one period has room for each of the 511 non-zero states exactly once. -/
theorem lfsrPeriodIs511 : Obligations.LfsrPeriodIs511 := by
  refine ⟨fun n => ?_, fun s h => ?_, iterate_lfsrStep_seed_ne_zero, lfsrStep_zero⟩
  · rw [Function.iterate_add_apply, isPeriodicPt_lfsrStep_seed.eq]
  · obtain ⟨n, hn, e⟩ := exists_iterate_lfsrStep_seed h
    exact ⟨n, ⟨hn, e⟩, fun m ⟨hm, e'⟩ => iterate_lfsrStep_seed_injOn hm hn (e'.trans e.symm)⟩

end Sys2Proof.Machine
end

