-- ==== Sys2Proof/Proofs/Prbs9Request.lean ====
section
/-! PROOFS. The statements about `BUILD_PRBS9`: its length check, its payload, its failures, and its two steppings. -/

set_option autoImplicit false

namespace Sys2Proof.Machine

/-! ## The length check (R109, R114) -/

/-- The PRBS9 length check fails beyond 64 bytes, and at length 0 where `PRBS_LEN0` rejects. -/
theorem prbsRejects_eq_true_iff_toNat {p : Params} {l : Byte} :
    prbsRejects p l = true ↔ 65 ≤ l.toNat ∨ (l.toNat = 0 ∧ p.prbsLen0 = .reject) := by
  rw [prbsRejects_eq_true, BitVec.toNat_eq, BitVec.toNat_ofNat, Nat.zero_mod]

theorem prbsRejects_eq_false_iff_toNat {p : Params} {l : Byte} :
    prbsRejects p l = false ↔ l.toNat ≤ 64 ∧ (l.toNat = 0 → p.prbsLen0 = .accept) := by
  rw [← Bool.not_eq_true, prbsRejects_eq_true_iff_toNat]
  cases p.prbsLen0 <;> simp <;> omega

theorem resultOf_prbs9 {p : Params} {l : Byte} (h : l.toNat + 2 ≤ p.cap) :
    resultOf p 0x00#8 l = if prbsRejects p l then .sequenceLengthExceeded else .ok := by
  rw [resultOf, overflows_eq_false.2 h]
  rfl

/-! ## What a completed PRBS9 request shows -/

theorem exec_buildPrbs9_completes (l : Byte) (s : State) :
    ∃ t, exec (.buildPrbs9 l) s = .next t ∧ Completes s 0x00#8 l t :=
  exec_completes (i := .buildPrbs9 l) rfl s

theorem Completes.presents_of_result {s t : State} {ty l : Byte} {c : ResultCode} (h : Completes s ty l t)
    (e : resultOf s.params ty l = c) : Presents t c (writtenOf c l) :=
  e ▸ h.presents

section
variable {l : Byte} {s t : State} (h : Completes s 0x00#8 l t) (hfits : l.toNat + 2 ≤ s.params.cap)
include h hfits

theorem Completes.prbs9_status_iff :
    t.status = ResultCode.sequenceLengthExceeded.code ↔ prbsRejects s.params l = true := by
  rw [h.presents.status, resultOf_prbs9 hfits]
  cases prbsRejects s.params l <;> decide

theorem Completes.prbs9_presents_failure (hr : prbsRejects s.params l = true) : Presents t .sequenceLengthExceeded 0#9 :=
  h.presents_of_result (by rw [resultOf_prbs9 hfits, if_pos hr])

/-- A rejected request leaves every byte, but for the payload region where it pre-zeroes (R110). -/
theorem Completes.prbs9_read_failure (hr : prbsRejects s.params l = true) {a : Nat} (ha : a ∉ s.contended) :
    t.txbuf.read a = if s.params.prezeroOnFail = true ∧ 2 ≤ a ∧ a < 2 + l.toNat then some 0x00#8 else s.txbuf.read a := by
  rw [h.read ha, build_prbs9_rejected _ hfits hr]
  cases s.params.prezeroOnFail with
  | false => rfl
  | true =>
    simp only [if_true, true_and, Memory.read_writeFrom, List.length_replicate, List.getElem?_replicate]
    exact if_ctx_congr Iff.rfl (fun hin => if_pos (by omega)) fun _ => rfl

variable (hr : prbsRejects s.params l = false)
include hr

theorem Completes.prbs9_presents_ok : Presents t .ok (writtenOk l) :=
  h.presents_of_result (by rw [resultOf_prbs9 hfits, hr]; rfl)

/-- An accepted request leaves the header, the closed form in the payload region, and the bytes above it as they were (R112). -/
theorem Completes.prbs9_read_ok {a : Nat} (ha : a ∉ s.contended) :
    t.txbuf.read a =
      if a = 1 then some l else if a = 0 then some 0x00#8
      else if 2 ≤ a ∧ a < 2 + l.toNat then some (prbsByte l.toNat (a - 2)) else s.txbuf.read a := by
  rw [h.read ha, build_prbs9_accepted _ hfits hr, read_layout, List.length_map, List.length_range]
  have hpayload (hin : 2 ≤ a ∧ a < 2 + l.toNat) :
      ((List.range l.toNat).map (prbsByte l.toNat))[a - 2]? = some (prbsByte l.toNat (a - 2)) := by
    rw [List.getElem?_map, List.getElem?_range (by omega), Option.map_some]
  exact if_congr Iff.rfl rfl (if_congr Iff.rfl rfl (if_ctx_congr Iff.rfl hpayload fun _ => rfl))

theorem Completes.prbs9_read_payload {k : Nat} (hk : k < l.toNat) (hq : payloadOffset k ∉ s.contended) :
    t.txbuf.read (payloadOffset k) = some (prbsByte l.toNat k) := by
  have e : payloadOffset k = k + 2 := Nat.add_comm 2 k
  rw [h.prbs9_read_ok hfits hr hq, e, if_neg (by omega), if_neg (by omega), if_pos (by omega), Nat.add_sub_cancel]

end

/-! ## The generator's registers -/

/-- A rejected generation leaves the generator alone (log 18). -/
theorem exec_buildPrbs9_keepsGen {l : Byte} {s t : State} (hr : prbsRejects s.params l = true)
    (e : exec (.buildPrbs9 l) s = .next t) : KeepsGen s t := by
  rcases execBuildPrbs9_cases l s with ⟨-, e'⟩ | ⟨-, -, e'⟩ | ⟨-, hr', -⟩
  · cases e.symm.trans e'
    exact ⟨rfl, rfl, rfl⟩
  · cases e.symm.trans e'
    exact ⟨rfl, rfl, rfl⟩
  · exact absurd (hr.symm.trans hr') (by decide)

/-- A generation by bit steps leaves the registers as R111's loop does. -/
theorem exec_buildPrbs9_serial {l : Byte} {s : State} (hfits : l.toNat + 2 ≤ s.params.cap)
    (hr : prbsRejects s.params l = false) (hserial : s.params.stepping = .bitSerial) :
    ∃ t, exec (.buildPrbs9 l) s = .next t ∧ t.lfsr = (serialGen l.toNat).lfsr ∧ t.bitIdx = (serialGen l.toNat).bitIdx ∧
      t.byteAcc = (serialGen l.toNat).byteAcc := by
  rcases execBuildPrbs9_cases l s with ⟨h, -⟩ | ⟨-, hr', -⟩ | ⟨-, -, x, j, b, n, bs, -, hregs, -, e⟩
  · omega
  · exact absurd (hr.symm.trans hr') (by decide)
  · obtain ⟨-, hx, hj, hb, -⟩ := hregs hserial
    exact ⟨_, e, hx, hj, hb⟩

theorem serialInv_serialGen {l : Nat} (h : l ≤ 64) : SerialInv l (l * 8 - 1) (serialGen l) :=
  serialInv_serialLoop l (by omega)

theorem serialLoop_succ (n : Nat) (g : GenRun) : serialLoop (n + 1) g = serialStep (serialLoop n g) := by
  rw [serialLoop_eq_iterate, serialLoop_eq_iterate, Function.iterate_succ_apply']

/-- `BYTE_ACC` holds the byte that the iteration wrote. -/
theorem serialStep_out_getD (g : GenRun) (h : g.bitIdx.toNat / 8 < g.out.length) :
    (serialStep g).out.getD (g.bitIdx.toNat / 8) 0#8 = (serialStep g).byteAcc := by
  simp [serialStep, h]

/-- The last iteration writes the last byte, at bit position `8 l - 2`. -/
theorem serialGen_byteAcc {l : Nat} (h : l ≤ 64) :
    (serialGen l).byteAcc = if l = 0 then 0#8 else prbsByte l (l - 1) := by
  split
  next hzero =>
    subst hzero
    rfl
  next hpos =>
    obtain ⟨n, hn⟩ : ∃ n, l * 8 - 1 = n + 1 := ⟨l * 8 - 2, by omega⟩
    obtain ⟨-, hidx, hlen, -⟩ := serialInv_serialLoop l (n := n) (by omega)
    have hout := serialGen_out h
    rw [serialGen, hn, serialLoop_succ] at hout ⊢
    rw [← serialStep_out_getD _ (by rw [hidx, hlen]; omega), hidx, hout, show n / 8 = l - 1 by omega,
      List.getD_eq_getElem _ _ (by simpa using Nat.sub_one_lt hpos), List.getElem_map, List.getElem_range]

/-! ## The statements about requests -/

/-- Settles O10: the request is accepted, and its payload bytes are the closed form, whose bits are the sequence. -/
theorem prbs9RequestWritesSequence : Obligations.Prbs9RequestWritesSequence := by
  intro l s hpos hmax hfits
  obtain ⟨t, e, h⟩ := exec_buildPrbs9_completes l s
  have hr : prbsRejects s.params l = false := prbsRejects_eq_false_iff_toNat.2 ⟨hmax, by omega⟩
  refine ⟨t, e, h.prbs9_presents_ok hfits hr, fun hq => h.prbs9_read_ok hfits hr hq,
    fun hq => h.prbs9_read_ok hfits hr hq,
    fun k hk => ⟨prbsByte l.toNat k, h.prbs9_read_payload hfits hr hk, rfl, fun j hj => ?_⟩⟩
  rw [getLsbD_prbsByte hj]
  split
  next hlast => simp [hlast]
  next hother => simp [hother]

/-- Settles O11: the last position holds 0, so it differs from the sequence exactly where the sequence has a one. -/
theorem prbs9LastBitStaysZero : Obligations.Prbs9LastBitStaysZero := by
  intro l s hpos hmax hfits hq
  obtain ⟨t, e, h⟩ := exec_buildPrbs9_completes l s
  have hr : prbsRejects s.params l = false := prbsRejects_eq_false_iff_toNat.2 ⟨hmax, by omega⟩
  obtain ⟨k, hk⟩ : ∃ k, l.toNat = k + 1 := ⟨l.toNat - 1, by omega⟩
  have hoffset : l.toNat + 1 = payloadOffset k := by rw [hk, payloadOffset, hdrBytes]; omega
  have hclear : (prbsByte l.toNat k).getLsbD 0 = false := by
    rw [getLsbD_prbsByte (j := 7) (by decide), hk]
    simp
  rw [hoffset] at hq ⊢
  refine ⟨t, prbsByte l.toNat k, e, h.prbs9_read_payload hfits hr (by omega) hq, hclear, ?_⟩
  rw [hclear, hk, show 8 * (k + 1) - 1 = 8 * k + 7 by omega, ne_comm, Bool.ne_false_iff]
  exact prbsBit_last_eq_true_iff (by omega)

/-- Settles O12: the status is the length violation exactly when the length check fails. -/
theorem prbs9RejectedExactlyBeyond511Bits : Obligations.Prbs9RejectedExactlyBeyond511Bits := by
  intro l s hfits
  obtain ⟨t, e, h⟩ := exec_buildPrbs9_completes l s
  have hstatus := (h.prbs9_status_iff hfits).trans prbsRejects_eq_true_iff_toNat
  refine ⟨t, e, hstatus.trans (or_congr_left (by omega)), fun hpos => hstatus.trans (or_iff_left ?_)⟩
  rintro ⟨hzero, -⟩
  omega

/-- Settles O13: the failure is presented, the registers are not touched, and only the pre-zeroing writes. -/
theorem prbs9LengthViolation : Obligations.Prbs9LengthViolation := by
  intro l s hfits hlen
  have hr : prbsRejects s.params l = true := prbsRejects_eq_true_iff_toNat.2 hlen
  obtain ⟨t, e, h⟩ := exec_buildPrbs9_completes l s
  have hread {a : Nat} (ha : a ∉ s.contended) := h.prbs9_read_failure hfits hr ha
  refine ⟨t, e, h.prbs9_presents_failure hfits hr, exec_buildPrbs9_keepsGen hr e, fun hz a ha => ?_,
    fun hz => ⟨fun k hk hq => ?_, fun a hout ha => ?_⟩⟩
  · rw [hread ha, hz]
    rfl
  · rw [hread hq, if_pos]
    exact ⟨hz, Nat.le_add_right 2 k, Nat.add_lt_add_left hk 2⟩
  · rw [hread ha, if_neg]
    rintro ⟨-, hlow, hhigh⟩
    exact hout (a - 2) (by omega) (by rw [payloadOffset, hdrBytes]; omega)

/-- Settles O14: a request of length 0 is accepted or rejected as `PRBS_LEN0` says, and its payload region is empty. -/
theorem prbs9LengthZero : Obligations.Prbs9LengthZero := by
  intro s hcap
  obtain ⟨t, e, h⟩ := exec_buildPrbs9_completes 0#8 s
  refine ⟨t, e, fun haccept => ?_, fun hreject => ?_⟩
  · have hr : prbsRejects s.params 0#8 = false := prbsRejects_eq_false_iff_toNat.2 ⟨by decide, fun _ => haccept⟩
    exact ⟨h.prbs9_presents_ok hcap hr, fun hq => h.prbs9_read_ok hcap hr hq, fun hq => h.prbs9_read_ok hcap hr hq,
      fun a ha => h.read_outside ((windowSize_of_fits (l := 0#8) hcap).trans_le ha)⟩
  · have hr : prbsRejects s.params 0#8 = true := prbsRejects_eq_true_iff_toNat.2 (.inr ⟨rfl, hreject⟩)
    refine ⟨h.prbs9_presents_failure hcap hr, fun a ha => ?_⟩
    rw [h.prbs9_read_failure hcap hr ha, if_neg]
    rintro ⟨-, hlow, hhigh⟩
    exact absurd hhigh (Nat.not_lt.2 hlow)

/-- Settles O15: R111's loop is left as its invariant describes after its last iteration. -/
theorem bitSerialGenerationRegisters : Obligations.BitSerialGenerationRegisters := by
  intro l s hserial hfits hmax hzero
  have hr : prbsRejects s.params l = false := prbsRejects_eq_false_iff_toNat.2 ⟨hmax, hzero⟩
  obtain ⟨hlfsr, hidx, -, -⟩ := serialInv_serialGen hmax
  obtain ⟨t, e, elfsr, eidx, eacc⟩ := exec_buildPrbs9_serial hfits hr hserial
  exact ⟨t, e, elfsr.trans hlfsr, (congrArg BitVec.toNat eidx).trans hidx, eacc.trans (serialGen_byteAcc hmax)⟩

/-- Settles O16: the checks and `Build` do not look at the stepping, and every request completes as they say. -/
theorem steppingsAreIndistinguishable : Obligations.SteppingsAreIndistinguishable := by
  intro i s x
  obtain ⟨ty, hcompletes⟩ := exec_completes_any i
  obtain ⟨t, et, ht⟩ := hcompletes s
  obtain ⟨u, eu, hu⟩ := hcompletes { s with params := { s.params with stepping := x } }
  obtain ⟨hstatus, hwritten, hvalid, hphase⟩ := ht.presents
  obtain ⟨hstatus', hwritten', hvalid', hphase'⟩ := hu.presents
  refine ⟨t, u, et, eu, hvalid'.trans hvalid.symm, ?_, hphase'.trans hphase.symm, fun a ha => ?_⟩
  · rw [State.respWord, State.respWord, hstatus, hwritten, hstatus', hwritten']
    rfl
  · rw [ht.read ha, hu.read ha]
    rfl

end Sys2Proof.Machine
end

