-- ==== Sys2Proof/Proofs/FillRequest.lean ====
section
/-! PROOFS. The statement about the six `BUILD_FILL` requests: the response and the buffer of one that fits. -/

set_option autoImplicit false

namespace Sys2Proof.Machine

/-- Each of the six rows is a well-formed request of its type code and length, whose code has the row's constant (R76, R131). -/
theorem fillRows_fields {l code c : Byte} {i : Instr} (h : (i, code, c) ∈ fillRows l) :
    i.wellFormed = true ∧ i.reqType = code ∧ i.reqLen = l ∧ code ≠ 0x00#8 ∧ constOf code = some c := by
  simp only [fillRows, List.mem_cons, Prod.mk.injEq, List.not_mem_nil, or_false] at h
  rcases h with ⟨rfl, rfl, rfl⟩ | ⟨rfl, rfl, rfl⟩ | ⟨rfl, rfl, rfl⟩ | ⟨rfl, rfl, rfl⟩ | ⟨rfl, rfl, rfl⟩ | ⟨rfl, rfl, rfl⟩ <;>
    exact ⟨rfl, rfl, rfl, by decide, rfl⟩

/-- A request of a code with a constant fails for no reason but the capacity check (R132, R155). -/
theorem resultOf_fixed {p : Params} {ty l c : Byte} (hfits : l.toNat + 2 ≤ p.cap) (ht : ty ≠ 0x00#8)
    (hc : constOf ty = some c) : resultOf p ty l = .ok := by
  rw [resultOf, overflows_eq_false.2 hfits, patternKind, if_neg ht, hc]
  rfl

section
variable {s t : State} {ty l c : Byte} (h : Completes s ty l t) (hfits : l.toNat + 2 ≤ s.params.cap) (ht : ty ≠ 0x00#8)
  (hc : constOf ty = some c)
include h hfits ht hc

theorem Completes.fixed_presents_ok : Presents t .ok (writtenOk l) :=
  h.presents_of_result (resultOf_fixed hfits ht hc)

/-- A fixed-pattern request that fits leaves the header, its constant in the payload region, and the bytes above it as they
were (R132). -/
theorem Completes.fixed_read {a : Nat} (ha : a ∉ s.contended) :
    t.txbuf.read a =
      if a = 1 then some l else if a = 0 then some ty
      else if 2 ≤ a ∧ a < 2 + l.toNat then some c else s.txbuf.read a := by
  rw [h.read ha, build_fixed _ hfits ht hc, read_layout, List.length_replicate, List.getElem?_replicate]
  exact if_congr Iff.rfl rfl (if_congr Iff.rfl rfl (if_ctx_congr Iff.rfl (fun hin => if_pos (by omega)) fun _ => rfl))

theorem Completes.fixed_read_payload {k : Nat} (hk : k < l.toNat) (hq : payloadOffset k ∉ s.contended) :
    t.txbuf.read (payloadOffset k) = some c := by
  have e : payloadOffset k = k + 2 := Nat.add_comm 2 k
  rw [h.fixed_read hfits ht hc hq, e, if_neg (by omega), if_neg (by omega), if_pos (by omega)]

end

/-- Settles O18: each row completes as a fixed-pattern request of its code, which has the row's constant. -/
theorem fillRequestsWriteConstant : Obligations.FillRequestsWriteConstant := by
  intro l i code c s hrow hfits
  obtain ⟨hwf, rfl, rfl, ht, hc⟩ := fillRows_fields hrow
  obtain ⟨t, e, h⟩ := exec_completes hwf s
  have hok : Presents t .ok (writtenOk i.reqLen) := h.fixed_presents_ok hfits ht hc
  have hcount : t.written.toNat = i.reqLen.toNat + 2 := by rw [hok.written, toNat_writtenOk]
  exact ⟨t, e, rfl, hc, hok, hcount, fun hq => h.fixed_read hfits ht hc hq, fun hq => h.fixed_read hfits ht hc hq,
    fun k hk hq => h.fixed_read_payload hfits ht hc hk hq⟩

end Sys2Proof.Machine
end

