-- ==== Sys2Proof/Proofs/RequestFrame.lean ====
section
/-! PROOFS. The frames of the requests: the registers a completion leaves, and the bytes beside the header and the payload. -/

set_option autoImplicit false

namespace Sys2Proof.Machine

/-! ## Bytes beside the header and the payload -/

theorem not_payload_of_ne_payloadOffset {a n : Nat} (h : ∀ k < n, a ≠ payloadOffset k) : ¬ (2 ≤ a ∧ a < 2 + n) := by
  rintro ⟨hlow, hhigh⟩
  exact h (a - 2) (by omega) (by rw [payloadOffset, hdrBytes]; omega)

theorem read_writeFrom_outside (m : Memory) {bs : List Byte} {a : Nat} (h : ∀ k < bs.length, a ≠ payloadOffset k) :
    (m.writeFrom 2 bs).read a = m.read a := by
  rw [Memory.read_writeFrom, if_neg (not_payload_of_ne_payloadOffset h)]

theorem read_layout_outside (m : Memory) {bs : List Byte} (t l : Byte) {a : Nat} (h0 : a ≠ 0) (h1 : a ≠ 1)
    (h : ∀ k < bs.length, a ≠ payloadOffset k) : (((m.writeFrom 2 bs).write 0 t).write 1 l).read a = m.read a := by
  rw [Memory.read_write_other _ _ h1, Memory.read_write_other _ _ h0, read_writeFrom_outside m h]

/-! ## What a completion leaves -/

theorem ResultCode.code_injective : Function.Injective ResultCode.code := by
  intro c c'
  cases c <;> cases c' <;> decide

/-- `t` is `s` completed with the result `c` of a request of length `l` whose own writes made the buffer `m`: the generator's
registers are those of `s`, and the contended offsets of the window are drawn and forgotten (R59). -/
structure SettlesTo (s : State) (l : Byte) (m : Memory) (c : ResultCode) (t : State) : Prop where
  status : t.status = c.code
  gen : KeepsGen s t
  contended : t.contended = []
  draws : t.draws = s.draws + (s.contendedIn l).length
  read : ∀ a, a ∉ s.contendedIn l → t.txbuf.read a = m.read a

theorem settlesTo_respond {s : State} {l : Byte} {m : Memory} {c : ResultCode} {w : BitVec 9} :
    SettlesTo s l m c (respond c w (settleWindow l (s.setBuf m))) where
  status := rfl
  gen := ⟨rfl, rfl, rfl⟩
  contended := rfl
  draws := rfl
  read _ ha := read_settleWindow (s := s.setBuf m) ha

theorem SettlesTo.status_ne {s t : State} {l : Byte} {m : Memory} {c c' : ResultCode} (h : SettlesTo s l m c t)
    (hc : c ≠ c') : t.status ≠ c'.code :=
  h.status ▸ ResultCode.code_injective.ne hc

/-- Any request ends in an error with the generator left alone, or in a success with the header written last. -/
theorem exec_settlesTo {i : Instr} {s t : State} (h : exec i s = .next t) :
    (∃ c m, c ≠ .ok ∧ SettlesTo s i.reqLen m c t) ∨
    ∃ x j b n bs, SettlesTo ((s.setGen x j b).countDraws n) i.reqLen
      (((s.txbuf.writeFrom 2 bs).write 0 i.reqType).write 1 i.reqLen) .ok t := by
  rcases exec_cases i s with ⟨-, e⟩ | ⟨-, c, m, hc, -, -, e⟩ | ⟨-, x, j, b, n, bs, -, e⟩ <;> cases e.symm.trans h
  · exact .inl ⟨.bufferOverflow, s.txbuf, by decide, settlesTo_respond⟩
  · exact .inl ⟨c, m, hc, settlesTo_respond⟩
  · exact .inr ⟨x, j, b, n, bs, settlesTo_respond⟩

theorem exec_buildPrbs9_settlesTo {l : Byte} {s t : State} (h : exec (.buildPrbs9 l) s = .next t) :
    SettlesTo s l s.txbuf .bufferOverflow t ∨
    SettlesTo s l (if s.params.prezeroOnFail then s.txbuf.writeFrom 2 (List.replicate l.toNat 0x00#8) else s.txbuf)
      .sequenceLengthExceeded t ∨
    ∃ x j b n bs, bs.length = l.toNat ∧ SettlesTo ((s.setGen x j b).countDraws n) l
      (((s.txbuf.writeFrom 2 bs).write 0 0x00#8).write 1 l) .ok t := by
  rcases execBuildPrbs9_cases l s with ⟨-, e⟩ | ⟨-, -, e⟩ | ⟨-, -, x, j, b, n, bs, hlen, -, -, e⟩ <;> cases e.symm.trans h
  · exact .inl settlesTo_respond
  · exact .inr (.inl settlesTo_respond)
  · exact .inr (.inr ⟨x, j, b, n, bs, hlen, settlesTo_respond⟩)

theorem buildFill_settlesTo {code c l : Byte} {s t : State} (h : buildFill code c l s = .next t) :
    SettlesTo s l s.txbuf .bufferOverflow t ∨
    SettlesTo s l (((s.txbuf.writeFrom 2 (List.replicate l.toNat c)).write 0 code).write 1 l) .ok t := by
  rcases buildFill_cases code c l s with ⟨-, e⟩ | ⟨-, e⟩ <;> cases e.symm.trans h
  · exact .inl settlesTo_respond
  · exact .inr settlesTo_respond

theorem buildInvalid_settlesTo {l : Byte} {s t : State} (h : buildInvalid l s = .next t) :
    ∃ c, SettlesTo s l s.txbuf c t := by
  rcases buildInvalid_cases l s with ⟨-, e⟩ | ⟨-, e⟩ <;> cases e.symm.trans h
  · exact ⟨_, settlesTo_respond⟩
  · exact ⟨_, settlesTo_respond⟩

/-! ## The rows of a kind -/

/-- Each of the six fill rows is a fill with its code and constant (R133 to R138). -/
theorem exec_fillRows {l code c : Byte} {i : Instr} (h : (i, code, c) ∈ fillRows l) : exec i = buildFill code c l := by
  obtain ⟨hwf, rfl, rfl, ht, hc⟩ := fillRows_fields h
  rw [exec_of_patternKind hwf, patternKind, if_neg ht, hc]

/-- Each row of `BUILD_INVALID` is the request without a generator, whatever its type code (R166). -/
theorem exec_invalidRows {code l : Byte} {i : Instr} (h : i ∈ invalidRows code l) : exec i = buildInvalid l := by
  simp only [invalidRows, List.mem_cons, List.not_mem_nil, or_false] at h
  rcases h with rfl | rfl | rfl | rfl | rfl | rfl <;> rfl

/-! ## The statements about frames and errors -/

/-- Settles O17: an overflow writes nothing, a violation at most the payload region, and a success the generator's registers, the
payload and the header. -/
theorem prbs9Frame : Obligations.Prbs9Frame := by
  intro l s t e
  refine ⟨exec_keepsRest e, ?_⟩
  rcases exec_buildPrbs9_settlesTo e with h | h | ⟨x, j, b, n, bs, hlen, h⟩
  · exact ⟨h.contended, fun _ => h.gen, fun hok => absurd hok (h.status_ne (by decide)),
      fun hv => absurd hv (h.status_ne (by decide)), fun _ _ => h.read⟩
  · refine ⟨h.contended, fun _ => h.gen, fun hok => absurd hok (h.status_ne (by decide)), fun _ hz a hout ha => ?_,
      fun _ hz a ha => ?_⟩
    · rw [h.read a ha, if_pos hz, read_writeFrom_outside _ (by simpa using hout)]
    · rw [h.read a ha, if_neg fun hpre => hz ⟨h.status, hpre⟩]
  · refine ⟨h.contended, fun hne => absurd h.status hne, fun _ a h0 h1 hout ha => ?_,
      fun hv => absurd hv (h.status_ne (by decide)), fun hne => absurd h.status hne⟩
    rw [h.read a ha, read_layout_outside _ _ _ h0 h1 (hlen ▸ hout)]

/-- Settles O19: an overflow writes nothing, and a success the payload and the header. -/
theorem fillFrame : Obligations.FillFrame := by
  intro l i code c s t hrow e
  refine ⟨exec_keepsRest e, ?_⟩
  rw [exec_fillRows hrow] at e
  rcases buildFill_settlesTo e with h | h
  · exact ⟨h.gen, h.contended, h.draws, fun a ha _ => h.read a ha⟩
  · refine ⟨h.gen, h.contended, h.draws, fun a ha hok => ?_⟩
    obtain ⟨h0, h1, hout⟩ := hok h.status
    rw [h.read a ha, read_layout_outside _ _ _ h0 h1 (by simpa using hout)]

/-- Settles O20: the capacity check decides which of the two errors is presented, and neither comes with a write. -/
theorem invalidRequestsReportInvalidType : Obligations.InvalidRequestsReportInvalidType := by
  intro code l i s hrow
  rw [exec_invalidRows hrow]
  rcases buildInvalid_cases l s with ⟨h, e⟩ | ⟨h, e⟩
  · rw [if_pos h]
    exact ⟨_, e, presents_respond _ _ _, fun a ha => read_settleWindow_of rfl ha⟩
  · rw [if_neg (Nat.not_lt.2 h)]
    exact ⟨_, e, presents_respond _ _ _, fun a ha => read_settleWindow_of rfl ha⟩

/-- Settles O21: either error leaves the registers and the buffer as they were. -/
theorem invalidFrame : Obligations.InvalidFrame := by
  intro code l i s t hrow e
  refine ⟨exec_keepsRest e, ?_⟩
  rw [exec_invalidRows hrow] at e
  obtain ⟨_, h⟩ := buildInvalid_settlesTo e
  exact ⟨h.gen, h.contended, h.draws, h.read⟩

/-- Settles O22: of the ways a request ends, the overflow alone is left, and it comes without a write. -/
theorem overflowReportedFirst : Obligations.OverflowReportedFirst := by
  intro i s h
  rcases exec_cases i s with ⟨-, e⟩ | ⟨hfits, -⟩ | ⟨hfits, -⟩
  · exact ⟨_, e, presents_respond _ _ _, ⟨rfl, rfl, rfl⟩, fun a ha => read_settleWindow_of rfl ha⟩
  · omega
  · omega

end Sys2Proof.Machine
end

