-- ==== Sys2Proof/Proofs/BuilderOutcome.lean ====
section
/-! PROOFS. The outcome of a request as a function of its word and the parameters: `Build`, the header, and which errors occur. -/

set_option autoImplicit false

namespace Sys2Proof.Machine

/-- Settles O24: every well-formed request ends with `Build`'s result, and settling a quiet window changes no byte. -/
theorem everyRequestIsBuild : Obligations.EveryRequestIsBuild := by
  intro i s hwf hquiet
  obtain ⟨t, e, hpresents, hbuf⟩ := (endsWith_exec hwf s).presents
  exact ⟨t, e, hbuf hquiet, hpresents⟩

/-- Settles O25: only the successful end answers `OK`, and it writes the header last. -/
theorem headerOfEverySuccess : Obligations.HeaderOfEverySuccess := by
  intro i s t e hok
  rcases exec_settlesTo e with ⟨c, m, hc, h⟩ | ⟨x, j, b, n, bs, h⟩
  · exact absurd hok (h.status_ne hc)
  · have hread {a : Nat} (ha : a ∉ s.contended) :=
      (h.read a fun hm => ha (mem_contendedIn.1 hm).1).trans (read_layout s.txbuf bs i.reqType i.reqLen a)
    exact ⟨fun hq => hread hq, fun hq => hread hq⟩

/-! ## Independence of the history (R169) -/

/-- The reported result depends on two of the parameters. -/
theorem resultOf_congr {p p' : Params} (hcap : p'.cap = p.cap) (hlen0 : p'.prbsLen0 = p.prbsLen0) (t l : Byte) :
    resultOf p' t l = resultOf p t l := by
  have hoverflows : overflows p' l = overflows p l := by rw [overflows, overflows, hcap]
  have hrejects : prbsRejects p' l = prbsRejects p l := by rw [prbsRejects, prbsRejects, hlen0]
  rw [resultOf, resultOf, hoverflows, hrejects]

/-- `Build` depends on three of the parameters, and not on the stepping. -/
theorem build_congr {p p' : Params} (hcap : p'.cap = p.cap) (hlen0 : p'.prbsLen0 = p.prbsLen0)
    (hzero : p'.prezeroOnFail = p.prezeroOnFail) (t l : Byte) (b : Memory) : build t l p' b = build t l p b := by
  simp only [build, hcap, hlen0, hzero]

/-- At each offset an overlay puts a byte of its own, whatever was there, or leaves what was there. -/
theorem Overlay.read_same_or_kept {n : Nat} {g : Memory → Memory} (h : Overlay n g) (m m' : Memory) (x : Nat) :
    (g m').read x = (g m).read x ∨ ((g m).read x = m.read x ∧ (g m').read x = m'.read x) := by
  rw [h.reads m, h.reads m']
  cases (g []).read x with
  | none => exact .inr ⟨rfl, rfl⟩
  | some v => exact .inl rfl

/-- Settles O28: both runs complete as the same type, and `Build` lays the same bytes over both buffers. -/
theorem outcomeIndependentOfHistory : Obligations.OutcomeIndependentOfHistory := by
  intro i s s' hcap hlen0 hzero hq hq'
  obtain ⟨ty, hcompletes⟩ := exec_completes_any i
  obtain ⟨t, e, h⟩ := hcompletes s
  obtain ⟨t', e', h'⟩ := hcompletes s'
  have hresult := resultOf_congr hcap hlen0 ty i.reqLen
  refine ⟨t, t', e, e', ?_, ?_, fun a => ?_⟩
  · rw [h'.presents.status, h.presents.status, hresult]
  · rw [h'.presents.written, h.presents.written, hresult]
  · rw [h'.txbuf_of_quiet hq', h.txbuf_of_quiet hq, build_congr hcap hlen0 hzero]
    exact (overlay_build ty i.reqLen s.params).read_same_or_kept _ _ a

/-! ## Which errors occur (R162) -/

/-- The reported result, with the check that failed where it is an overflow or a length violation (R183). -/
theorem resultOf_cases (p : Params) (t l : Byte) :
    (p.cap < l.toNat + 2 ∧ resultOf p t l = .bufferOverflow) ∨
    (l.toNat + 2 ≤ p.cap ∧ prbsRejects p l = true ∧ resultOf p t l = .sequenceLengthExceeded) ∨
    (l.toNat + 2 ≤ p.cap ∧ (resultOf p t l = .invalidPatternType ∨ resultOf p t l = .ok)) := by
  rcases Nat.lt_or_ge p.cap (l.toNat + 2) with h | h
  · exact .inl ⟨h, if_pos (overflows_eq_true.2 h)⟩
  rcases patternKind_cases t with ⟨rfl, -⟩ | ⟨ht, c, hc, -⟩ | ⟨-, -, hkind⟩
  · have e := resultOf_prbs9 h
    cases hr : prbsRejects p l <;> rw [hr] at e
    · exact .inr (.inr ⟨h, .inr e⟩)
    · exact .inr (.inl ⟨h, rfl, e⟩)
  · exact .inr (.inr ⟨h, .inr (resultOf_fixed h ht hc)⟩)
  · refine .inr (.inr ⟨h, .inl ?_⟩)
    rw [resultOf, overflows_eq_false.2 h, hkind]
    rfl

/-- Overflow is reported only where the capacity check fails (R151). -/
theorem lt_of_resultOf_eq_bufferOverflow {p : Params} {t l : Byte} (h : resultOf p t l = .bufferOverflow) :
    p.cap < l.toNat + 2 := by
  rcases resultOf_cases p t l with ⟨hover, -⟩ | ⟨-, -, e⟩ | ⟨-, e | e⟩
  · exact hover
  all_goals cases e.symm.trans h

/-- The length violation is reported only for a request that fits and fails the PRBS9 length check (R109). -/
theorem prbsRejects_of_resultOf_eq_sequenceLengthExceeded {p : Params} {t l : Byte}
    (h : resultOf p t l = .sequenceLengthExceeded) : l.toNat + 2 ≤ p.cap ∧ prbsRejects p l = true := by
  rcases resultOf_cases p t l with ⟨-, e⟩ | ⟨hfits, hr, -⟩ | ⟨-, e | e⟩
  case inr.inl => exact ⟨hfits, hr⟩
  all_goals cases e.symm.trans h

/-- The status that a request answers is the code of the result its word calls for. -/
theorem exists_resultOf_eq_of_exec {i : Instr} {s t : State} {c : ResultCode} (h : exec i s = .next t)
    (hstatus : t.status = c.code) : ∃ ty, resultOf s.params ty i.reqLen = c := by
  obtain ⟨ty, hcompletes⟩ := exec_completes_any i
  obtain ⟨t', h', hc⟩ := hcompletes s
  cases h.symm.trans h'
  exact ⟨ty, ResultCode.code_injective (hc.presents.status.symm.trans hstatus)⟩

/-- Settles O30: the longest request takes 257 bytes with its header, and the shortest one that PRBS9 rejects takes 67. -/
theorem errorsReachableByCapacity : Obligations.ErrorsReachableByCapacity := by
  intro p
  refine ⟨⟨?_, fun hcap => ?_⟩, fun haccept => ⟨?_, fun hcap => ?_⟩⟩
  · rintro ⟨i, s, t, rfl, e, hstatus⟩
    obtain ⟨ty, hresult⟩ := exists_resultOf_eq_of_exec e hstatus
    have hover := lt_of_resultOf_eq_bufferOverflow hresult
    omega
  · obtain ⟨t, e, h, -⟩ := overflowReportedFirst (.buildInvalid03 255#8) { State.reset with params := p }
      (Nat.lt_succ_of_le hcap)
    exact ⟨_, _, t, rfl, e, h.status⟩
  · rintro ⟨i, s, t, -, rfl, e, hstatus⟩
    obtain ⟨ty, hresult⟩ := exists_resultOf_eq_of_exec e hstatus
    obtain ⟨hfits, hr⟩ := prbsRejects_of_resultOf_eq_sequenceLengthExceeded hresult
    have hlong : 65 ≤ i.reqLen.toNat := by simpa [haccept] using prbsRejects_eq_true.1 hr
    omega
  · obtain ⟨t, e, h, -⟩ := prbs9LengthViolation 65#8 { State.reset with params := p } hcap (.inl (Nat.le_refl 65))
    exact ⟨_, _, t, rfl, rfl, e, h.status⟩

end Sys2Proof.Machine
end

