-- ==== Sys2Proof/Proofs/ReportedResult.lean ====
section
/-! PROOFS. The reported result of a request as the table of R183: the first failing check in the order of R152. -/

set_option autoImplicit false

namespace Sys2Proof.Machine

/-- The codes with a constant are the six of R131. -/
theorem constOf_eq_none_iff {t : Byte} :
    constOf t = none ↔ t ∉ [0x01#8, 0x02#8, 0x04#8, 0x05#8, 0x06#8, 0x07#8] := by
  simp [constOf, ite_eq_iff]

/-- A request of a code without a generator that fits fails for its type (R156). -/
theorem resultOf_unsupported {p : Params} {t l : Byte} (hfits : l.toNat + 2 ≤ p.cap) (ht : t ≠ 0x00#8)
    (hc : constOf t = none) : resultOf p t l = .invalidPatternType := by
  rw [resultOf, overflows_eq_false.2 hfits, patternKind, if_neg ht, hc]
  rfl

/-- The result is the first failing check: the capacity, then the length of a PRBS9 request or the type of any other (R183). -/
theorem resultOf_checkOrder (p : Params) (t l : Byte) :
    resultOf p t l =
      if p.cap < l.toNat + 2 then .bufferOverflow
      else if t = 0x00#8 then
        if 65 ≤ l.toNat ∨ (l = 0#8 ∧ p.prbsLen0 = .reject) then .sequenceLengthExceeded else .ok
      else if t ∈ [0x01#8, 0x02#8, 0x04#8, 0x05#8, 0x06#8, 0x07#8] then .ok
      else .invalidPatternType := by
  split
  next hover => exact if_pos (overflows_eq_true.2 hover)
  next hfits =>
    have hfits := Nat.le_of_not_lt hfits
    split
    next ht => rw [ht, resultOf_prbs9 hfits, if_congr prbsRejects_eq_true rfl rfl]
    next ht =>
      split
      next hmem =>
        obtain ⟨c, hc⟩ := Option.ne_none_iff_exists'.1 fun hnone => constOf_eq_none_iff.1 hnone hmem
        exact resultOf_fixed hfits ht hc
      next hmem => exact resultOf_unsupported hfits ht (constOf_eq_none_iff.2 hmem)

/-- Settles O23: a well-formed request completes with the code of its result, and the result follows the order of checks. -/
theorem reportedResultFollowsCheckOrder : Obligations.ReportedResultFollowsCheckOrder := by
  intro i s hwf
  obtain ⟨t, e, h⟩ := exec_completes hwf s
  refine ⟨t, e, ?_⟩
  rw [h.presents.status, resultOf_checkOrder]
  simp only [apply_ite ResultCode.code]
  rfl

end Sys2Proof.Machine
end

