-- ==== Sys2Proof/Proofs/ResetStatements.lean ====
section
/-! PROOFS. The statements about reset: what the rise of `rst` abandons and keeps, and the block held in reset and released. -/

set_option autoImplicit false

namespace Sys2Proof.Machine

/-- A reset redraws the window of a request in flight, and nothing where there is none (R201). -/
theorem mem_resetWindow {s : State} {a : Nat} :
    a ∈ resetWindow s ↔ s.phase = .busy ∧ a < windowSize s.params s.reqL := by
  rw [resetWindow]
  cases s.phase <;> simp

/-- `rst` goes from 0 to 1 (R201). -/
theorem hostMove_setRst_rise {s : State} (hr : s.rst = false) : hostMove (.setRst true) s = .next (enterReset s) := by
  simp [hostMove, hostSetRst, hr]

/-- Settles O42: the bytes that entering reset redraws lie in the window of the request in flight. -/
theorem resetAbandonsRequest : Obligations.ResetAbandonsRequest := by
  intro s hr
  refine ⟨enterReset s, hostMove_setRst_rise hr, rfl, rfl, rfl, fun a hout => ?_⟩
  have hkept : a ∉ resetWindow s := fun hm => by
    obtain ⟨hbusy, hin⟩ := mem_resetWindow.1 hm
    exact Nat.not_lt.2 (hout hbusy) hin
  exact Memory.read_drawAt_other _ _ hkept

/-- The block's step in reset (R200). -/
theorem step_reset {s : State} {rest : List Turn} (h : BlockNext s rest) (hr : s.rst = true) :
    step s = .next (holdReset (s.setSchedule rest)) :=
  (step_of_blockNext h).trans (blockMove_reset hr)

/-- Settles O43: the invariant makes a block in reset quiet, so holding it there and releasing it change nothing else. -/
theorem heldInReset : Obligations.HeldInReset := by
  intro s hinv hr
  obtain ⟨hidle, hvalid⟩ := hinv.rstQuiet hr
  have hready : s.reqReady = true := by simp [State.reqReady, hidle]
  refine ⟨hidle, hvalid, fun rest hnext => ?_, _, rfl, rfl, hidle, hready, hvalid, rfl⟩
  rw [step_reset hnext hr, holdReset_quiet (s := s.setSchedule rest) ⟨hidle, hvalid⟩]
  rfl

end Sys2Proof.Machine
end

