-- ==== Sys2Proof/Proofs/FrameForwarding.lean ====
section
/-! PROOFS. Forwarding: the frame fits the buffer, and on `OK` it is the header and the payload (R207). -/

set_option autoImplicit false

namespace Sys2Proof.Machine

/-! ## Forwarding a response -/

/-- A request that succeeds fits the buffer (R151). -/
theorem fits_of_resultOf_eq_ok {p : Params} {t l : Byte} (h : resultOf p t l = .ok) : l.toNat + 2 ≤ p.cap := by
  rcases resultOf_cases p t l with ⟨-, e⟩ | ⟨hfits, -⟩ | ⟨hfits, -⟩
  · cases e.symm.trans h
  · exact hfits
  · exact hfits

/-- `WRITTEN` of the result a request calls for never exceeds `CAP`: a success fits, and an error counts 0. -/
theorem toNat_writtenOf_resultOf_le_cap (p : Params) (t l : Byte) : (writtenOf (resultOf p t l) l).toNat ≤ p.cap := by
  rw [toNat_writtenOf]
  split
  next hok => exact fits_of_resultOf_eq_ok (ResultCode.code_injective hok)
  next => exact Nat.zero_le _

/-- A valid response whose count fits the buffer is forwarded: its frame on `OK`, nothing on an error (R207). -/
theorem hostMove_forward_of_valid {s : State} (hvalid : s.respValid = true) (hfits : s.written.toNat ≤ s.params.cap) :
    hostMove .forward s = .next { s with forwarded := if s.status = ResultCode.ok.code then s.frame else [] } := by
  rw [hostMove, hostForward, if_pos hvalid, if_pos hfits]
  split <;> rfl

@[simp] theorem State.frame_length (s : State) : s.frame.length = s.written.toNat := by
  rw [State.frame, List.length_map, List.length_range]

/-- Below `WRITTEN` the frame holds what was written to the buffer. -/
theorem State.getElem?_frame {s : State} {a : Nat} {v : Byte} (ha : a < s.written.toNat) (hread : s.txbuf.read a = some v) :
    s.frame[a]? = some v := by
  rw [State.frame, List.getElem?_map, List.getElem?_range ha, Option.map_some, State.byteAt, hread, Option.getD_some]

/-! ## What a success leaves in the buffer -/

section
variable {s t : State} {ty l : Byte} (h : Completes s ty l t)
include h

theorem Completes.written_le_cap : t.written.toNat ≤ t.params.cap := by
  rw [h.presents.written, h.params]
  exact toNat_writtenOf_resultOf_le_cap _ _ _

/-- A success leaves the header and the payload, which is the constant of the code where it has one and else the closed form of the
PRBS9 payload; the bytes above are as they were (R157, R158). -/
theorem Completes.read_success (hok : resultOf s.params ty l = .ok) {a : Nat} (ha : a ∉ s.contended) :
    t.txbuf.read a =
      if a = 1 then some l else if a = 0 then some ty
      else if 2 ≤ a ∧ a < 2 + l.toNat then some ((constOf ty).getD (prbsByte l.toNat (a - 2))) else s.txbuf.read a := by
  have hfits := fits_of_resultOf_eq_ok hok
  rcases patternKind_cases ty with ⟨rfl, -⟩ | ⟨ht, c, hc, -⟩ | ⟨ht, hc, -⟩
  · have hr : prbsRejects s.params l = false := by
      refine Bool.eq_false_iff.2 fun hr => ?_
      rw [resultOf_prbs9 hfits, if_pos hr] at hok
      cases hok
    exact h.prbs9_read_ok hfits hr ha
  · rw [h.fixed_read hfits ht hc ha, hc, Option.getD_some]
  · cases (resultOf_unsupported hfits ht hc).symm.trans hok

end

/-- Settles O49: the completed request has `WRITTEN` bytes in the buffer, and forwarding reads them off. -/
theorem forwardHandsOverWrittenBytes : Obligations.ForwardHandsOverWrittenBytes := by
  intro i s hwf hq
  obtain ⟨t, e, h⟩ := exec_completes hwf s
  refine ⟨t, _, e, hostMove_forward_of_valid h.presents.respValid h.written_le_cap, fun hok => ?_, fun herr => if_neg herr⟩
  have hresult : resultOf s.params i.reqType i.reqLen = .ok :=
    ResultCode.code_injective (h.presents.status.symm.trans hok)
  have hcount : t.written.toNat = i.reqLen.toNat + 2 := by
    rw [h.presents.written, hresult]
    exact toNat_writtenOk _
  have hread (a : Nat) := h.read_success hresult (a := a) (by simp [hq])
  simp only [if_pos hok]
  refine ⟨t.frame_length, t.frame_length.trans hcount, State.getElem?_frame (by omega) (hread 0),
    State.getElem?_frame (by omega) (hread 1), fun k hk => State.getElem?_frame (by omega) ?_⟩
  rw [hread, if_neg (by omega), if_neg (by omega), if_pos (by omega), Nat.add_sub_cancel_left]
  cases constOf i.reqType <;> rfl

end Sys2Proof.Machine
end

