-- ==== Sys2Proof/Proofs/DutifulProgress.lean ====
section
/-! PROOFS. A machine whose host keeps its duties always has a next state (R204 to R206). -/

set_option autoImplicit false

namespace Sys2Proof.Machine

/-- The block always has a next state: in reset, in IDLE and in BUSY (R32, R186, R200). -/
theorem exists_blockMove_eq_next (s : State) : ∃ t, blockMove s = .next t := by
  cases hr : s.rst
  · cases hp : s.phase
    · exact ⟨_, blockMove_idle hr hp⟩
    · obtain ⟨t, e, -⟩ := exec_completes (wellFormed_decodeWord (requestWord s)) s
      exact ⟨t, (blockMove_busy hr hp).trans e⟩
  · exact ⟨_, blockMove_reset hr⟩

/-- Where a response is valid, the invariant bounds its count by `CAP`. -/
theorem Inv.written_le_cap {s : State} (hinv : Inv s) (hvalid : s.respValid = true) : s.written.toNat ≤ s.params.cap := by
  obtain ⟨-, hwritten⟩ := hinv.responseRight hvalid
  rw [hwritten]
  exact toNat_writtenOf_resultOf_le_cap _ _ _

/-- A host action that keeps its duty has a next state: its access is inside the buffer, its response valid. -/
theorem exists_hostMove_eq_next {s : State} (hinv : Inv s) {a : HostAction} (hkept : actionKept s a = true) :
    ∃ t, hostMove a s = .next t := by
  cases a with
  | drive valid x y => exact ⟨_, rfl⟩
  | setRst level => rcases hostMove_setRst_cases level s with ⟨-, -, e⟩ | ⟨-, -, e⟩ | ⟨-, e⟩ <;> exact ⟨_, e⟩
  | readBuf a =>
    obtain ⟨ha, hg⟩ := actionKept_readBuf.1 hkept
    exact ⟨_, hostMove_readBuf_open ha hg⟩
  | writeBuf a v =>
    obtain ⟨ha, hg⟩ := actionKept_writeBuf.1 hkept
    exact ⟨_, hostMove_writeBuf_open v ha hg⟩
  | readResp => exact ⟨_, (responseReadOnlyWhileValid s).1 hkept⟩
  | forward => exact ⟨_, hostMove_forward_of_valid hkept (hinv.written_le_cap hkept)⟩

/-- Settles O50: the block's move always has a next state, and so has a host action that keeps its duty. -/
theorem dutifulHostNeverStops : Obligations.DutifulHostNeverStops := by
  intro s hinv hkept
  rcases step_cases s with ⟨rest, -, e⟩ | ⟨a, rest, hs, e⟩ <;> rw [e]
  · exact exists_blockMove_eq_next _
  · have hact := (actionKept_setSchedule s rest a).trans (actionKept_of_dutyKept hkept hs)
    exact exists_hostMove_eq_next (hinv.of_keepsCore (keepsCore_setSchedule s rest)) hact

end Sys2Proof.Machine
end

