-- ==== Sys2Proof/Proofs/DutifulDraws.lean ====
section
/-! PROOFS. A step whose host turn keeps the host's duties draws no free value (logs 8, 9, 11, 24). -/

set_option autoImplicit false

namespace Sys2Proof.Machine

/-- In bit-serial stepping a request draws a free value for each contended offset of its window, and for nothing else: the generator's
draw for `BIT_IDX` belongs to byte-granular stepping (log 9). -/
theorem exec_draws_of_bitSerial {i : Instr} {s t : State} (hserial : s.params.stepping = .bitSerial) (h : exec i s = .next t) :
    t.draws = s.draws + (s.contendedIn i.reqLen).length := by
  rcases exec_kind i s with ⟨c, e⟩ | e | ⟨l, rfl⟩
  · rcases buildFill_settlesTo (e.symm.trans h) with hfill | hfill
    · exact hfill.draws
    · exact hfill.draws
  · obtain ⟨_, hinvalid⟩ := buildInvalid_settlesTo (e.symm.trans h)
    exact hinvalid.draws
  · rcases execBuildPrbs9_cases l s with ⟨-, e⟩ | ⟨-, -, e⟩ | ⟨-, -, x, j, b, n, bs, -, hgen, -, e⟩ <;> cases e.symm.trans h
    · rfl
    · rfl
    · obtain ⟨-, -, -, -, rfl⟩ := hgen hserial
      rfl

@[simp] theorem idleMove_draws (s : State) : (idleMove s).draws = s.draws := by
  rcases idleMove_cases s with ⟨-, e⟩ | ⟨-, e⟩ <;> rw [e]
  rfl

/-- Out of reset, with bit-serial stepping and nothing contended, no move of the block draws. -/
theorem blockMove_draws {s t : State} (hr : s.rst = false) (hserial : s.params.stepping = .bitSerial) (hq : s.contended = [])
    (h : blockMove s = .next t) : t.draws = s.draws := by
  rcases blockMove_next_cases h with ⟨hrst, -⟩ | ⟨-, -, rfl⟩ | ⟨-, -, hx⟩
  · simp [hr] at hrst
  · exact idleMove_draws s
  · rw [exec_draws_of_bitSerial hserial hx, State.contendedIn, hq]
    rfl

/-- A host action draws only where it raises `rst`, or reads in the window of a request in flight, which the duties forbid (R205). -/
theorem hostMove_draws_of_kept {a : HostAction} {s t : State} (hkept : actionKept s a = true) (h : hostMove a s = .next t)
    (hr : t.rst = false) : t.draws = s.draws := by
  cases a with
  | drive valid x y => cases h; rfl
  | setRst level =>
    rcases hostMove_setRst_cases level s with ⟨-, -, e⟩ | ⟨-, -, e⟩ | ⟨-, e⟩ <;> cases e.symm.trans h
    · rfl
    · simp at hr
    · rfl
  | readBuf x =>
    obtain ⟨hx, hg⟩ := actionKept_readBuf.1 hkept
    cases (hostMove_readBuf_open hx hg).symm.trans h
    rfl
  | writeBuf x v =>
    obtain ⟨hx, hg⟩ := actionKept_writeBuf.1 hkept
    cases (hostMove_writeBuf_open v hx hg).symm.trans h
    rfl
  | readResp =>
    obtain ⟨-, rfl⟩ := hostMove_readResp_next h
    rfl
  | forward =>
    obtain ⟨-, rfl⟩ := hostMove_forward_next h
    rfl

/-- Settles O51: neither the block's move nor a dutiful host action draws, and R61's step already leaves no contended offset. -/
theorem dutifulRunsDrawNoFreeValue : Obligations.DutifulRunsDrawNoFreeValue := by
  intro s t hinv hq hserial hr hkept h ht
  obtain ⟨-, -, -, hcontended⟩ := dutifulHostSeesBuiltBuffer s t hinv hq hr hkept h ht
  refine ⟨?_, hcontended⟩
  rcases step_next_cases h with ⟨rest, -, hb⟩ | ⟨a, rest, hs, hh⟩
  · exact blockMove_draws (s := s.setSchedule rest) hr hserial hq hb
  · have hact := (actionKept_setSchedule s rest a).trans (actionKept_of_dutyKept hkept hs)
    exact hostMove_draws_of_kept (s := s.setSchedule rest) hact hh ht

end Sys2Proof.Machine
end
